-- ==== Sys2Proof/Word.lean ====
section
/-! DEFINITION. The plain words of the block: bytes, the 32-bit count, one-bit levels, packets (00_scope.md R8, R9). -/

namespace Sys2Proof

/-- A byte: 8 bits, bit 0 least significant (R8). -/
abbrev Byte := BitVec 8

/-- The only fixed-width quantity of the block, `bit_count` and the `settck:` period (R8, R51). -/
abbrev Word32 := BitVec 32

/-- One bit: a pin level or a vector element; `true` is 1 (R8). -/
abbrev Bit := Bool

/-- A transport packet: its bytes; the transport delivers its length with it (R7, R82). -/
abbrev Packet := List Byte

end Sys2Proof
end

