-- ==== Sys2Proof/Config.lean ====
section
/-! DEFINITION. What a build of the block fixes (the parameters of 00_scope.md R6) and the free values the spec leaves open. -/

namespace Sys2Proof

/-- What the Engine does with payload bytes beyond the expected count (R6, R80, D6). -/
inductive ExcessPolicy where
  | ignore
  | error
  deriving DecidableEq, Repr

/-- What the Host does with an over-capacity `shift:` (R6, R108, D21). -/
inductive HostCapPolicy where
  | teardown
  | drainAndContinue
  deriving DecidableEq, Repr

/-- The three vector buffers (R26). -/
inductive BufId where
  | tms
  | tdi
  | tdo
  deriving DecidableEq, Repr

/-- The three output pins (R29). -/
inductive Pin where
  | tck
  | tms
  | tdi
  deriving DecidableEq, Repr

/-- The parameters of R6. `C` is the packet capacity, `CAP` the capacity of each buffer in bytes. -/
structure Config where
  C : Nat
  CAP : Nat
  excessPolicy : ExcessPolicy
  hostCapPolicy : HostCapPolicy
  maxPayload : Nat
  deriving DecidableEq, Repr

/-- The reference values of R6 (D29: defaults of the parameters, not audited). -/
def Config.reference : Config where
  C := 64
  CAP := 1024
  excessPolicy := .ignore
  hostCapPolicy := .teardown
  maxPayload := 2048

/-- R6: `C >= 4`, so that a header fits in one packet. -/
abbrev Config.valid (c : Config) : Prop := 4 ≤ c.C

/-- FREE VALUE (R34, U14; log 4): what byte `a` of a buffer holds after power-on number `n`. -/
opaque Config.powerOnByte : (n : Nat) → BufId → (a : Nat) → Byte

/-- FREE VALUE, the parameter PIN_RESET of R6 and R34 (log 5): the level of a pin after power-on number `n`. -/
opaque Config.pinReset : (n : Nat) → Pin → Bit

/-- FREE VALUE (R30, U11; log 7): the level of the TDO input before the first rising edge of TCK. -/
opaque Config.tdoReset : Bit

/-- FREE VALUE (R147 form (a), U11; log 7): the Target's answer to draw number `n`. -/
opaque Config.tdoDraw : (n : Nat) → Bit

/-- FREE VALUE (R147 form (b); log 7): a Target model, its state coded as a natural number:
`apply t tms tdi` gives the next Target state and the TDO level. -/
opaque Config.targetApply : (t : Nat) → (tms tdi : Bit) → Nat × Bit

/-- FREE VALUE, the parameter UNKNOWN_CONSUME of R104 (D23, U9; log 8): how many bytes of an unread
stream that holds no command the parser reads before it decides so. -/
opaque Config.unknownConsume : (stream : List Byte) → Nat

end Sys2Proof
end

