-- ==== Sys2Proof/Syntax.lean ====
section
/-! DEFINITION. The operations of the block, one constructor per row of spec/opcode_table.json, and the events that select them. -/

namespace Sys2Proof

/-- The control position of the Engine, the document's `state` (10_state.md R21). -/
inductive Phase where
  | header
  | receiveTms
  | receiveTdi
  | shift
  deriving DecidableEq, Repr

/-- One constructor per row of spec/opcode_table.json (30_encoding.md section 8). -/
inductive Instr where
  /-- `PKT.HEADER` (R121): the packet delivered in state `HEADER`. -/
  | pktHeader (p : Packet)
  /-- `PKT.TMS` (R122): the packet delivered in state `RECEIVE_TMS`. -/
  | pktTms (p : Packet)
  /-- `PKT.TDI` (R123): the packet delivered in state `RECEIVE_TDI`. -/
  | pktTdi (p : Packet)
  /-- `SHIFT.CYCLE` (R141). -/
  | shiftCycle
  /-- `SHIFT.RETURN` (R143). -/
  | shiftReturn
  /-- `XRESET` (R201). -/
  | xreset
  /-- `POR` (R200). -/
  | por
  /-- `BYTE_COUNT` (R161). -/
  | byteCount (n : Word32)
  /-- `GET_BIT` (R162). -/
  | getBit (buf : List Byte) (i : Nat)
  /-- `SET_BIT` (R163). -/
  | setBit (buf : List Byte) (i : Nat) (v : Bit)
  /-- `CHUNK` (R75). -/
  | chunk (v : List Byte)
  /-- `REASSEMBLE` (R76). -/
  | reassemble (ps : List Packet)
  /-- `HOST.GETINFO` (R101). -/
  | hostGetinfo
  /-- `HOST.SETTCK` (R102): the 4-byte period. -/
  | hostSettck (period : Word32)
  /-- `HOST.SHIFT` (R103): `bit_count` and the two vectors; an over-capacity command carries no vector,
  since the Host rejects it before it reads them (R108; log 24). -/
  | hostShift (n : Word32) (tms tdi : List Byte)
  /-- `HOST.UNKNOWN` (R104): the unread stream in which no command was found. -/
  | hostUnknown (seen : List Byte)
  /-- `SHIFTCMD` (R84), the pseudo-instruction of the script notation. -/
  | shiftcmd (n : Word32) (tms tdi : List Byte)
  deriving DecidableEq, Repr

/-- A call of one of the pure functions, or of the pseudo-instruction, by whichever agent makes it
(selector events `function call` and `expansion only` of the opcode table). -/
inductive Call where
  | byteCount (n : Word32)
  | getBit (buf : List Byte) (i : Nat)
  | setBit (buf : List Byte) (i : Nat) (v : Bit)
  | chunk (v : List Byte)
  | reassemble (ps : List Packet)
  | shiftcmd (n : Word32) (tms tdi : List Byte)
  deriving DecidableEq, Repr

/-- What the decoder is given: the selector events of the opcode table (R70, R7). -/
inductive Event where
  /-- `PacketIn(p)`: the Transport delivers a packet. -/
  | packetIn (p : Packet)
  /-- the Engine's internal step. -/
  | internal
  /-- the transport reset. -/
  | xreset
  /-- power-on reset. -/
  | por
  /-- a function call or a script expansion. -/
  | call (c : Call)
  /-- the unread TCP stream, between commands. -/
  | tcp (stream : List Byte)
  deriving DecidableEq, Repr

/-- The part of the Engine's state that decides how an event is decoded (R70, R63). -/
structure Control where
  phase : Phase
  bitCount : Word32
  i : Nat
  deriving DecidableEq, Repr

end Sys2Proof
end

