-- ==== Sys2Proof/Machine/Operands.lean ====
section
/-! DEFINITION. Operand assembly and the pure functions of the block: little-endian integers, byte_count_of, the bit accessors, chunking, and the texts of the TCP commands. -/

namespace Sys2Proof

/-- `unle32` of 00_scope.md R9: four bytes, least significant first (R51, R77). -/
def unle32 (b0 b1 b2 b3 : Byte) : Word32 :=
  b0.setWidth 32 ||| (b1.setWidth 32 <<< 8) ||| (b2.setWidth 32 <<< 16) ||| (b3.setWidth 32 <<< 24)

/-- `le32` of 00_scope.md R9: the inverse of `unle32`. -/
def le32 (n : Word32) : List Byte :=
  [n.extractLsb' 0 8, n.extractLsb' 8 8, n.extractLsb' 16 8, n.extractLsb' 24 8]

/-- `byte_count_of(n) = ceil(n / 8)` on natural numbers, so that nothing wraps (R161, R206). -/
def byteCountOf (n : Word32) : Nat := (n.toNat + 7) / 8

/-- `ceil(a / b)` (R8). -/
def ceilDiv (a b : Nat) : Nat := (a + b - 1) / b

/-- Bit `k` of a byte, `(b >> k) & 1` (R162). -/
def byteGetBit (b : Byte) (k : Nat) : Bit := (b >>> k) &&& 1#8 == 1#8

/-- A byte with bit `k` set or cleared and its siblings kept (R163). -/
def byteSetBit (b : Byte) (k : Nat) (v : Bit) : Byte :=
  if v then b ||| (1#8 <<< k) else b &&& ~~~(1#8 <<< k)

/-- `get_bit(buf, i)` on a byte sequence (R162); nothing where byte `i / 8` does not exist. -/
def listGetBit (buf : List Byte) (i : Nat) : Option Bit :=
  (buf[i / 8]?).map fun b => byteGetBit b (i % 8)

/-- `set_bit(buf, i, v)` on a byte array (R163); nothing where byte `i / 8` does not exist. -/
def listSetBit (buf : List Byte) (i : Nat) (v : Bit) : Option (List Byte) :=
  (buf[i / 8]?).map fun b => buf.set (i / 8) (byteSetBit b (i % 8) v)

/-- `chunk_C(v)`: packet `k` is `v[k*C .. min((k+1)*C, n))`, for `k < ceil(n / C)` (R75). -/
def chunk (c : Nat) (v : List Byte) : List Packet :=
  (List.range (ceilDiv v.length c)).map fun k => (v.drop (k * c)).take c

/-- `reassemble(ps)`: the packets joined in arrival order (R76). -/
def reassemble (ps : List Packet) : List Byte := ps.flatten

/-- `SHIFTCMD n, tms, tdi`, which is also what the Host sends for a `shift:` (R84, R106):
the header packet of 4 bytes (D20), then the TMS packets, then the TDI packets. -/
def commandPackets (c : Nat) (n : Word32) (tms tdi : List Byte) : List Packet :=
  le32 n :: (chunk c tms ++ chunk c tdi)

/-- How many payload bytes the packet at `offset` must hold: `need` of R72. -/
def needOf (c byteCount offset : Nat) : Nat := min c (byteCount - offset)

/-- `getinfo:` in ASCII (R78). -/
def getinfoText : List Byte := [0x67, 0x65, 0x74, 0x69, 0x6E, 0x66, 0x6F, 0x3A]

/-- `settck:` in ASCII (R78). -/
def settckText : List Byte := [0x73, 0x65, 0x74, 0x74, 0x63, 0x6B, 0x3A]

/-- `shift:` in ASCII (R78). -/
def shiftText : List Byte := [0x73, 0x68, 0x69, 0x66, 0x74, 0x3A]

/-- `xvcServer_v1.0:` in ASCII (R79). -/
def capabilityText : List Byte :=
  [0x78, 0x76, 0x63, 0x53, 0x65, 0x72, 0x76, 0x65, 0x72, 0x5F, 0x76, 0x31, 0x2E, 0x30, 0x3A]

/-- Decimal digits of a number in ASCII, most significant first; the first argument bounds their count. -/
def decimalDigits : Nat → Nat → List Byte
  | 0, _ => []
  | fuel + 1, n => (if n < 10 then [] else decimalDigits fuel (n / 10)) ++ [BitVec.ofNat 8 (48 + n % 10)]

/-- The decimal text of a number in ASCII (R79). -/
def decimalText (n : Nat) : List Byte := decimalDigits (n + 1) n

/-- The `getinfo:` reply: capability text, decimal `MAXPAYLOAD`, line feed (R79, R101). -/
def getinfoReply (maxPayload : Nat) : List Byte := capabilityText ++ decimalText maxPayload ++ [0x0A]

/-- No command text begins the stream and none can still be completed by later bytes: the stream holds
an unknown command (R104; log 16). -/
def isUnknown (stream : List Byte) : Bool :=
  [getinfoText, settckText, shiftText].all fun t => !(t.isPrefixOf stream) && !(stream.isPrefixOf t)

end Sys2Proof
end

