-- ==== Sys2Proof/WellFormed.lean ====
section
/-! DEFINITION. What makes an operation's operands legal, as the spec's operand entries say. -/

namespace Sys2Proof

/-- The operand conditions of the opcode table: a packet has at most `C` bytes (R7, R81); a bit index lies in its
buffer (R162, R163); the vectors of a command have `byte_count_of(n)` bytes (R84, R103), but a `shift:` the Host
rejects carries none (R108; log 24); an unknown command is one in which no text can be found (R104). -/
def Instr.wf (c : Config) : Instr → Bool
  | .pktHeader p => decide (p.length ≤ c.C)
  | .pktTms p => decide (p.length ≤ c.C)
  | .pktTdi p => decide (p.length ≤ c.C)
  | .shiftCycle => true
  | .shiftReturn => true
  | .xreset => true
  | .por => true
  | .byteCount _ => true
  | .getBit buf i => decide (i / 8 < buf.length)
  | .setBit buf i _ => decide (i / 8 < buf.length)
  | .chunk _ => true
  | .reassemble ps => ps.all fun p => decide (p.length ≤ c.C)
  | .hostGetinfo => true
  | .hostSettck _ => true
  | .hostShift n tms tdi =>
    if byteCountOf n ≤ c.CAP then decide (tms.length = byteCountOf n) && decide (tdi.length = byteCountOf n)
    else tms.isEmpty && tdi.isEmpty
  | .hostUnknown seen => isUnknown seen
  | .shiftcmd n tms tdi => decide (tms.length = byteCountOf n) && decide (tdi.length = byteCountOf n)

end Sys2Proof
end

