-- ==== Sys2Proof/Decode.lean ====
section
/-! DEFINITION. From an event to the operation it selects, total on any bytes and rejecting by name, and back (30_encoding.md). -/

namespace Sys2Proof

/-- Why an event selects no operation. -/
inductive DecodeError where
  /-- A packet of more than `C` bytes: the transport carries none (R81). -/
  | packetTooLong
  /-- A packet is not delivered while `state = SHIFT` (R70, R144). -/
  | heldDuringShift
  /-- No internal step in this state: R127 has no row. -/
  | noInternalStep
  /-- The unread stream ends inside a command; the Host reads on (R105). -/
  | awaitingBytes
  deriving DecidableEq, Repr

/-- A packet has no type tag: the Engine's state alone selects the operation (R70, R120). -/
def decodePacket (cfg : Config) (ctl : Control) (p : Packet) : Except DecodeError Instr :=
  if cfg.C < p.length then .error .packetTooLong
  else match ctl.phase with
    | .header => .ok (.pktHeader p)
    | .receiveTms => .ok (.pktTms p)
    | .receiveTdi => .ok (.pktTdi p)
    | .shift => .error .heldDuringShift

/-- The internal operations: a cycle while `i < bit_count`, the return when `i = bit_count` (R70, R140). -/
def decodeInternal (ctl : Control) : Except DecodeError Instr :=
  if ctl.phase = .shift then
    if ctl.i < ctl.bitCount.toNat then .ok .shiftCycle
    else if ctl.i = ctl.bitCount.toNat then .ok .shiftReturn
    else .error .noInternalStep
  else .error .noInternalStep

/-- The parameters of a `settck:` (R78, R102): 4 bytes, with the bytes that follow. -/
def decodeSettck : List Byte → Except DecodeError (Instr × List Byte)
  | b0 :: b1 :: b2 :: b3 :: rest => .ok (.hostSettck (unle32 b0 b1 b2 b3), rest)
  | _ => .error .awaitingBytes

/-- The parameters of a `shift:` (R78, R103): 4 bytes of `bit_count`, then both vectors unless the
command is over capacity (R108), with the bytes that follow. -/
def decodeShift (cap : Nat) : List Byte → Except DecodeError (Instr × List Byte)
  | b0 :: b1 :: b2 :: b3 :: rest =>
    let n := unle32 b0 b1 b2 b3
    let bc := byteCountOf n
    if cap < bc then .ok (.hostShift n [] [], rest)
    else if rest.length < 2 * bc then .error .awaitingBytes
    else .ok (.hostShift n (rest.take bc) ((rest.drop bc).take bc), rest.drop (2 * bc))
  | _ => .error .awaitingBytes

/-- The next command of the unread TCP stream and the bytes after it (R78, R104, R105). The whole stream is
handed to an unknown command, which itself says how much of it is consumed. -/
def decodeTcp (cap : Nat) (stream : List Byte) : Except DecodeError (Instr × List Byte) :=
  match getinfoText.isPrefixOf? stream with
  | some rest => .ok (.hostGetinfo, rest)
  | none =>
    match settckText.isPrefixOf? stream with
    | some rest => decodeSettck rest
    | none =>
      match shiftText.isPrefixOf? stream with
      | some rest => decodeShift cap rest
      | none => if isUnknown stream then .ok (.hostUnknown stream, []) else .error .awaitingBytes

/-- A function call is its own operation. -/
def decodeCall : Call → Instr
  | .byteCount n => .byteCount n
  | .getBit buf i => .getBit buf i
  | .setBit buf i v => .setBit buf i v
  | .chunk v => .chunk v
  | .reassemble ps => .reassemble ps
  | .shiftcmd n tms tdi => .shiftcmd n tms tdi

/-- The decoder: the operation an event selects, and the stream bytes after it (none but for TCP). -/
def decode (cfg : Config) (ctl : Control) : Event → Except DecodeError (Instr × List Byte)
  | .packetIn p => (decodePacket cfg ctl p).map fun i => (i, [])
  | .internal => (decodeInternal ctl).map fun i => (i, [])
  | .xreset => .ok (.xreset, [])
  | .por => .ok (.por, [])
  | .call c => .ok (decodeCall c, [])
  | .tcp stream => decodeTcp cfg.CAP stream

/-- The bytes of a TCP command (R78); of the other operations, none. -/
def encodeTcp : Instr → List Byte
  | .hostGetinfo => getinfoText
  | .hostSettck period => settckText ++ le32 period
  | .hostShift n tms tdi => shiftText ++ le32 n ++ tms ++ tdi
  | .hostUnknown seen => seen
  | _ => []

/-- A control position of the Engine with nothing counted. -/
def Control.at (ph : Phase) : Control := ⟨ph, 0, 0⟩

/-- The encoder: the event that carries an operation, and a control position in which it is selected
(the `selector` entries of spec/opcode_table.json). -/
def encode : Instr → Control × Event
  | .pktHeader p => (Control.at .header, .packetIn p)
  | .pktTms p => (Control.at .receiveTms, .packetIn p)
  | .pktTdi p => (Control.at .receiveTdi, .packetIn p)
  | .shiftCycle => (⟨.shift, 1, 0⟩, .internal)
  | .shiftReturn => (Control.at .shift, .internal)
  | .xreset => (Control.at .header, .xreset)
  | .por => (Control.at .header, .por)
  | .byteCount n => (Control.at .header, .call (.byteCount n))
  | .getBit buf i => (Control.at .header, .call (.getBit buf i))
  | .setBit buf i v => (Control.at .header, .call (.setBit buf i v))
  | .chunk v => (Control.at .header, .call (.chunk v))
  | .reassemble ps => (Control.at .header, .call (.reassemble ps))
  | .hostGetinfo => (Control.at .header, .tcp (encodeTcp .hostGetinfo))
  | .hostSettck period => (Control.at .header, .tcp (encodeTcp (.hostSettck period)))
  | .hostShift n tms tdi => (Control.at .header, .tcp (encodeTcp (.hostShift n tms tdi)))
  | .hostUnknown seen => (Control.at .header, .tcp (encodeTcp (.hostUnknown seen)))
  | .shiftcmd n tms tdi => (Control.at .header, .call (.shiftcmd n tms tdi))

/-- The bytes of a table word, in stream order. The table writes `match` with stream byte 0 as the MOST
significant byte (the note of its HOST rows, 30_encoding.md section 8; log 14). -/
def tableBytes (nbits w : Nat) : List Byte :=
  (List.range (nbits / 8)).map fun k => BitVec.ofNat 8 (w >>> (8 * (nbits / 8 - 1 - k)))

/-- The bytes of a table word followed by zeros. -/
def tableStream (nbits w zeros : Nat) : List Byte := tableBytes nbits w ++ List.replicate zeros 0

/-- The TCP command a table word begins, read with the 4 zero bytes of a parameter behind it, and, where the word
itself holds a `bit_count`, with zero vectors of any accepted length behind it. -/
def decodeTableTcp (nbits w : Nat) : Except DecodeError (Instr × List Byte) :=
  match decodeTcp Config.reference.CAP (tableStream nbits w 4) with
  | .error .awaitingBytes =>
    decodeTcp Config.reference.CAP (tableStream nbits w (4 + 2 * Config.reference.CAP))
  | r => r

/-- The bytes of a table word as a header packet, filled up with zeros to the 4 bytes of R71. -/
def tablePacket (nbits w : Nat) : Packet :=
  tableBytes nbits w ++ List.replicate (4 - nbits / 8) 0

/-- The operation read from a table word (log 14). Where the bytes begin a TCP command (R78) it is that command,
its parameters zeros. Every other row has match and mask 0, selected by the Engine's state: the bytes are then a
packet delivered to an Engine as it stands after reset, in `HEADER`. -/
def decodeTableWord (nbits w : Nat) : Option Instr :=
  match decodeTableTcp nbits w with
  | .ok (.hostUnknown _, _) =>
    (decodePacket Config.reference (Control.at .header) (tablePacket nbits w)).toOption
  | .ok (i, _) => some i
  | .error _ => (decodePacket Config.reference (Control.at .header) (tablePacket nbits w)).toOption

end Sys2Proof
end

