-- ==== Sys2Proof/Machine/State.lean ====
section
/-! DEFINITION. The state of the Engine, the Transport, the Host and the Target as plain data, the reasons a step can stop, and the state after reset. -/

namespace Sys2Proof.Machine

/-- What an index no cell lists holds: zero after the zero fill of an accepted header (R121), any byte after a
power-on (R34). -/
inductive Fill where
  | zero
  | powerOn (n : Nat) (b : BufId)
  deriving DecidableEq, Repr

/-- The byte an unlisted index reads as (log 4). -/
def Fill.byteAt : Fill → Nat → Byte
  | .zero, _ => 0
  | .powerOn n b, a => Config.powerOnByte n b a

/-- A vector buffer (R26, R50): the bytes that differ from the background, at strictly rising indexes. -/
structure Memory where
  fill : Fill
  cells : List Host.Cell
  deriving DecidableEq, Repr

/-- The cells stand at strictly rising indexes, none below `lo`. -/
def cellsRisingFrom : Nat → List Host.Cell → Bool
  | _, [] => true
  | lo, c :: cs => decide (lo ≤ c.1) && cellsRisingFrom (c.1 + 1) cs

/-- The canonical form of a buffer of `cap` bytes: indexes strictly rising and inside `0 .. cap - 1` (R57), and no
cell equal to what its index reads as unlisted. -/
def Memory.wf (cap : Nat) (m : Memory) : Bool :=
  cellsRisingFrom 0 m.cells && m.cells.all fun c => decide (c.1 < cap) && decide (c.2 ≠ m.fill.byteAt c.1)

/-- The three sticky flags (R28). -/
structure Err where
  capacity : Bool
  shortPacket : Bool
  shortHeader : Bool
  deriving DecidableEq, Repr

/-- The errors an Engine operation raises (R170, codes 1 to 3). -/
inductive EngineError where
  | capacity
  | shortPacket
  | shortHeader
  deriving DecidableEq, Repr

/-- The errors of the Host (R170, codes 4 to 7). -/
inductive HostError where
  | connectionFatal
  | protocolMalformed
  | transportTimeout
  | capacity
  deriving DecidableEq, Repr

/-- A pin event (R7, R142): a level driven on an output, or the level sampled on TDO. -/
inductive PinEvent where
  | write (p : Pin) (b : Bit)
  | read (v : Bit)
  deriving DecidableEq, Repr

/-- The Target (R147): form (a), a draw per cycle; form (b), a Target model with its state; and the fixtures of
95_test_vectors.md section 0 (log 7). -/
inductive Target where
  /-- form (a): answer number `n` is the free value `Config.tdoDraw n`. -/
  | draw (n : Nat)
  /-- form (b): the Target model `Config.targetApply`, in its state `t`. -/
  | model (t : Nat)
  /-- `T_WIRE`: TDO wired to TDI. -/
  | wire
  /-- `T_ZERO`. -/
  | zero
  /-- `T_ONE`. -/
  | one
  /-- `T_TMS`: TDO wired to TMS. -/
  | tmsWire
  /-- `T_DELAY(d)`: a queue of `d` bits. -/
  | delay (q : List Bit)
  deriving DecidableEq, Repr

/-- The session of R36. -/
inductive Session where
  | opened
  | tornDown
  deriving DecidableEq, Repr

/-- The Shift Command in flight at the Host (R36): its parameters, the packets of it not yet sent (R103: each is a
transport operation of its own) and the TDO bytes collected so far. -/
structure Flight where
  bitCount : Word32
  tms : List Byte
  tdi : List Byte
  unsent : List Packet
  tdo : List Byte
  deriving DecidableEq, Repr

/-- One entry of the schedule: which agent moves, or which outside event happens (R7, R35; log 2). -/
inductive Turn where
  /-- power-on reset happens now, also inside a pass, between two cycles (R200). -/
  | por
  /-- power-on reset happens inside the JTAG cycle that would run next, after the first `k` of its five pin events
  (R200, R179: at any time; log 30). -/
  | porDuring (k : Nat)
  /-- the transport reset is asserted outside a teardown (R201), also where R111 gives the Host no such move (log 33). -/
  | xreset
  /-- one operation of the Engine, if it has one. -/
  | engine
  /-- one move of the Host, if it has one. -/
  | host
  /-- Engine and Host move until both wait. -/
  | settle
  /-- a packet is put on the transport by whoever can (R188): the script's `PKT` line. -/
  | send (p : Packet)
  /-- an agent calls a pure function, or the script expands `SHIFTCMD`. -/
  | call (c : Call)
  /-- the TCP client sends bytes (R105). -/
  | tcp (bs : List Byte)
  /-- a client connects (R109). -/
  | connect
  /-- the client closes the connection, the only cancellation signal (R111). -/
  | tcpClosed
  /-- a read or write of the Host fails (R174). -/
  | ioFailure
  /-- a waiting transport operation of the Host exceeds `T_XPORT` (R110, R176). -/
  | timeout
  /-- the first response packet is read by the script in the Host's place (`EXPECT OUT`, R83). -/
  | takeOut
  /-- the client reads this many reply bytes (`EXPECT TCP`, R83). -/
  | takeTcp (n : Nat)
  deriving DecidableEq, Repr

/-- What the last function call returned to its caller (log 13). -/
inductive CallResult where
  | nothing
  | count (n : Nat)
  | bit (b : Bit)
  | bytes (bs : List Byte)
  | packets (ps : List Packet)
  deriving DecidableEq, Repr

/-- The reasons a step stops with no next state. -/
inductive Fault where
  /-- Raised by the step in `HEADER` with nothing to deliver: the run is over (R213; log 9). Safe. -/
  | runOver
  /-- Raised by the step in a receive state with nothing to deliver: stuck, not final (R213, R209; log 9). Safe. -/
  | stuckReceiving
  /-- Raised by a meaning whose trigger does not hold, and by the step in `SHIFT` past the last cycle: R127 gives
  that pair of state and event no step (log 19). Safe. -/
  | notTriggered
  /-- Raised by an Engine access to a buffer index at or above `CAP`, which does not exist (R57; log 19); no
  reachable state has one (R33). Safe. -/
  | bufferIndex (b : BufId) (a : Nat)
  /-- Raised by GET_BIT and SET_BIT where byte `i / 8` does not exist in the buffer (R162, R163; log 19). Safe. -/
  | bitIndex (i : Nat)
  deriving DecidableEq, Repr

/-- The reasons a step gives an operation no meaning. -/
inductive Refusal where
  /-- Answered by exec's arm of an instruction that has no meaning yet. Safe. -/
  | notModelled (mnemonic : String)
  /-- Answered by the step for a call with operands the spec does not allow (WellFormed.lean; log 19). Safe. -/
  | illFormed (i : Instr)
  /-- Answered by the step for a packet of more than `C` bytes, which the transport cannot carry (R81; log 20). Safe. -/
  | packetTooLong (len : Nat)
  deriving DecidableEq, Repr

/-- The whole state: the Engine (R20), the Transport (R32), the pin trace (R12), the Target (R147), the Host (R36),
and the model's own fields. INVENTORY.md lists each with its rule and reset value. -/
structure State where
  /-- `state` (R21). -/
  phase : Phase
  /-- `bit_count` (R22). -/
  bitCount : Word32
  /-- `offset` (R24). -/
  offset : Nat
  /-- `i` (R25). -/
  i : Nat
  /-- `tms_buf` (R26). -/
  tmsBuf : Memory
  /-- `tdi_buf` (R26). -/
  tdiBuf : Memory
  /-- `tdo_buf` (R26). -/
  tdoBuf : Memory
  /-- `err` (R28). -/
  err : Err
  /-- the TCK pin latch (R29; log 18). -/
  tck : Bit
  /-- the TMS pin latch (R29; log 18). -/
  tms : Bit
  /-- the TDI pin latch (R29; log 18). -/
  tdi : Bit
  /-- `rx_q` (R32): packets sent and not yet consumed, oldest first. -/
  rxQ : List Packet
  /-- `tx_q` (R32): response packets emitted and not yet read, oldest first. -/
  txQ : List Packet
  /-- the pin trace (R10, R12), oldest first. -/
  pinTrace : List PinEvent
  /-- the Target with its state (R147). -/
  target : Target
  /-- the level the Target drives on TDO (R30, R147): its last answer. -/
  tdo : Bit
  /-- the session (R36). -/
  session : Session
  /-- the TCP stream not yet read (R35, R105). -/
  tcpIn : List Byte
  /-- the bytes written to the client. -/
  tcpOut : List Byte
  /-- the Shift Command in flight (R36). -/
  flight : Option Flight
  /-- bytes of a rejected command still to be discarded (R108). -/
  drain : Nat
  /-- the Host asserts XRESET and the Engine has not taken it yet (R179; log 10). -/
  xresetHeld : Bool
  /-- the errors the Host has met, oldest first (R170; log 22). -/
  hostLog : List HostError
  /-- the build's parameters (R6; log 1). -/
  cfg : Config
  /-- the schedule (log 2). -/
  agenda : List Turn
  /-- the result of the last function call (log 13). -/
  result : CallResult
  /-- how many power-ons there have been (log 6). -/
  powerOns : Nat
  deriving DecidableEq, Repr

/-- A buffer as power-on number `n` leaves it (R34). -/
def Memory.poweredOn (n : Nat) (b : BufId) : Memory := ⟨.powerOn n b, []⟩

/-- The state right after power-on reset (R34), in the launch premise of R203: a session is open and nothing has
been sent. -/
def State.reset : State where
  phase := .header
  bitCount := 0
  offset := 0
  i := 0
  tmsBuf := Memory.poweredOn 0 .tms
  tdiBuf := Memory.poweredOn 0 .tdi
  tdoBuf := Memory.poweredOn 0 .tdo
  err := ⟨false, false, false⟩
  tck := Config.pinReset 0 .tck
  tms := Config.pinReset 0 .tms
  tdi := Config.pinReset 0 .tdi
  rxQ := []
  txQ := []
  pinTrace := []
  target := .draw 0
  tdo := Config.tdoReset
  session := .opened
  tcpIn := []
  tcpOut := []
  flight := none
  drain := 0
  xresetHeld := false
  hostLog := []
  cfg := Config.reference
  agenda := []
  result := .nothing
  powerOns := 1

end Sys2Proof.Machine
end

