-- ==== Sys2Proof/Machine/Flags.lean ====
section
/-! DEFINITION. The sticky error flags (10_state.md R28): the only flags of the block. -/

namespace Sys2Proof.Machine

/-- The flags after `POR`: all 0 (R34). -/
def Err.clear : Err := ⟨false, false, false⟩

/-- The matching flag set, the others kept (R28, R181). -/
def Err.set (e : Err) (x : EngineError) : Err where
  capacity := e.capacity || decide (x = .capacity)
  shortPacket := e.shortPacket || decide (x = .shortPacket)
  shortHeader := e.shortHeader || decide (x = .shortHeader)

end Sys2Proof.Machine
end

