-- ==== Sys2Proof/Machine/Ops.lean ====
section
/-! DEFINITION. The named operations over buffers, pins, the Target, the queues and the Host's session, and the abort every Engine error takes. -/

namespace Sys2Proof.Machine

/-! ### Buffers (R50 to R57) -/

/-- The byte a cell list holds at an index, if it lists one. -/
def cellAt : List Host.Cell → Nat → Option Byte
  | [], _ => none
  | c :: cs, a => if c.1 = a then some c.2 else cellAt cs a

/-- The cell list with one more byte, in rising order. -/
def cellPut : List Host.Cell → Nat → Byte → List Host.Cell
  | [], a, v => [(a, v)]
  | c :: cs, a, v =>
    if a < c.1 then (a, v) :: c :: cs
    else if a = c.1 then (a, v) :: cs
    else c :: cellPut cs a v

/-- The cell list without an index. -/
def cellDel : List Host.Cell → Nat → List Host.Cell
  | [], _ => []
  | c :: cs, a => if c.1 = a then cellDel cs a else c :: cellDel cs a

/-- The zero fill of an accepted header: every byte 0 (R121, R64). -/
def Memory.zeroed : Memory := ⟨.zero, []⟩

/-- The byte at index `a`. -/
def Memory.peek (m : Memory) (a : Nat) : Byte := (cellAt m.cells a).getD (m.fill.byteAt a)

/-- `buf[a] <- v`, keeping the canonical form. -/
def Memory.poke (m : Memory) (a : Nat) (v : Byte) : Memory :=
  { m with cells := if v = m.fill.byteAt a then cellDel m.cells a else cellPut m.cells a v }

/-- Bytes stored at consecutive indexes from `a` (R126). -/
def Memory.pokeBytes (m : Memory) (a : Nat) : List Byte → Memory
  | [] => m
  | b :: bs => (m.poke a b).pokeBytes (a + 1) bs

/-- Bytes `0 .. n - 1` (R143). -/
def Memory.peekBytes (m : Memory) (n : Nat) : List Byte := (List.range n).map m.peek

/-- `get_bit(buf, i)` (R162, R164). -/
def Memory.getBit (m : Memory) (i : Nat) : Bit := byteGetBit (m.peek (i / 8)) (i % 8)

/-- `set_bit(buf, i, v)` (R163, R164). -/
def Memory.setBit (m : Memory) (i : Nat) (v : Bit) : Memory :=
  m.poke (i / 8) (byteSetBit (m.peek (i / 8)) (i % 8) v)

/-- The buffer of a name. -/
def State.buf (s : State) : BufId → Memory
  | .tms => s.tmsBuf
  | .tdi => s.tdiBuf
  | .tdo => s.tdoBuf

/-- One buffer replaced. -/
def State.setBuf (s : State) (b : BufId) (m : Memory) : State :=
  { s with
    tmsBuf := if b = .tms then m else s.tmsBuf
    tdiBuf := if b = .tdi then m else s.tdiBuf
    tdoBuf := if b = .tdo then m else s.tdoBuf }

/-- The zero fill of all three buffers over their whole capacity (R121). -/
def State.zeroBuffers (s : State) : State :=
  { s with tmsBuf := Memory.zeroed, tdiBuf := Memory.zeroed, tdoBuf := Memory.zeroed }

/-- `byte_count` of the current command: derived, never stored (R23). -/
def State.byteCount (s : State) : Nat := byteCountOf s.bitCount

/-- `need = min(C, byte_count - offset)` (R72). -/
def State.need (s : State) : Nat := needOf s.cfg.C s.byteCount s.offset

/-! ### Pins and the Target (R29, R56, R60, R147) -/

/-- `apply(tms, tdi) -> tdo` (R147): the Target's next state and the level it answers. -/
def Target.apply (t : Target) (tms tdi : Bit) : Target × Bit :=
  match t with
  | .draw n => (.draw (n + 1), Config.tdoDraw n)
  | .model t => (.model (Config.targetApply t tms tdi).1, (Config.targetApply t tms tdi).2)
  | .wire => (.wire, tdi)
  | .zero => (.zero, false)
  | .one => (.one, true)
  | .tmsWire => (.tmsWire, tms)
  | .delay [] => (.delay [], tdi)
  | .delay (v :: q) => (.delay (q ++ [tdi]), v)

/-- A `PinWrite(TCK, 1)` that follows a `PinWrite(TCK, 0)`: the rising edge on which the Target latches (R56). -/
def State.risingEdge (s : State) (p : Pin) (b : Bit) : Bool := decide (p = .tck) && b && !s.tck

/-- `PinWrite(P, b)`: the latch takes the level and the event joins the pin trace (R10, R29); on a rising edge of TCK
the Target latches TMS and TDI and drives its answer on TDO (R56, R147; log 7). -/
def State.pinWrite (s : State) (p : Pin) (b : Bit) : State :=
  { s with
    tck := if p = .tck then b else s.tck
    tms := if p = .tms then b else s.tms
    tdi := if p = .tdi then b else s.tdi
    pinTrace := s.pinTrace ++ [.write p b]
    target := if s.risingEdge p b then (s.target.apply s.tms s.tdi).1 else s.target
    tdo := if s.risingEdge p b then (s.target.apply s.tms s.tdi).2 else s.tdo }

/-- `PinRead(TDO)`: the event joins the pin trace with the level on TDO; it has no effect on the Target (R56, D33). -/
def State.pinRead (s : State) : State := { s with pinTrace := s.pinTrace ++ [.read s.tdo] }

/-- The five pin events of one JTAG cycle with TDI level `d` and TMS level `m`, in the order of R141:
TCK low, TDI, TMS, TCK high, TDO sampled. -/
def cyclePins (d m : Bit) : List (State → State) :=
  [(·.pinWrite .tck false), (·.pinWrite .tdi d), (·.pinWrite .tms m), (·.pinWrite .tck true), State.pinRead]

/-- The first `k` pin events of a JTAG cycle performed; no event is ever half-performed (R60, R200). -/
def State.cycleUpTo (s : State) (d m : Bit) (k : Nat) : State := ((cyclePins d m).take k).foldl (fun t e => e t) s

/-! ### The abort (60_exceptions.md R181) -/

/-- `raise E_x`: the flag is set and the Engine goes to `HEADER`; nothing else changes and there is no return
(R181, R182). So `offset` keeps its value, as R181 lists, and in `HEADER` after an abort it may be a multiple of `C`
other than the 0 of which R24 speaks; nothing reads it there (log 29). -/
def State.raise (s : State) (x : EngineError) : State :=
  { s with err := s.err.set x, phase := .header }

/-! ### The queues (R32, R59) -/

/-- Packets appended to `rx_q`, in order (`xport_send`). -/
def State.sendPackets (s : State) (ps : List Packet) : State := { s with rxQ := s.rxQ ++ ps }

/-- `emit q` for each packet, in order (R10, R143). -/
def State.emitPackets (s : State) (ps : List Packet) : State := { s with txQ := s.txQ ++ ps }

/-! ### The Host's session (40_host_command_framer.md) -/

/-- The Host is between commands: the session is open, no command is in flight (R109), no rejected payload is left
to discard (R108) and no XRESET of its own is still to be taken (log 10). -/
def State.hostReady (s : State) : Bool :=
  decide (s.session = .opened) && s.flight.isNone && decide (s.drain = 0) && !s.xresetHeld

/-- `tcp_write(s)`. -/
def State.tcpWrite (s : State) (bs : List Byte) : State := { s with tcpOut := s.tcpOut ++ bs }

/-- A Host error noted in the observation (R170). -/
def State.hostNote (s : State) (e : HostError) : State := { s with hostLog := s.hostLog ++ [e] }

/-- The session torn down on a fatal error: its buffers are released and the Host asserts XRESET, before any later
session can send a packet (R174, R111, D31; logs 11, 27). -/
def State.teardown (s : State) (e : HostError) : State :=
  { s with
    session := .tornDown
    tcpIn := []
    flight := none
    drain := 0
    xresetHeld := true
    hostLog := s.hostLog ++ [e] }

/-- The command in flight, with what is still to be sent and what has been collected of its response: once all is sent
and `byte_count` bytes are there they go to the client unmodified and the command is over (R103, R107, R36). With
`bit_count` 0 that is as soon as the header is sent, as R103 says, so the next command's header may stand in `rx_q` while
the Engine is in `SHIFT`, where R61 has the queue empty and R144 a conforming Host silent: the model's choice (log 31). -/
def State.hostAdvance (s : State) (f : Flight) : State :=
  if f.unsent = [] ∧ byteCountOf f.bitCount ≤ f.tdo.length then { s with flight := none, tcpOut := s.tcpOut ++ f.tdo }
  else { s with flight := some f }

/-- A function's result handed to its caller (log 13). -/
def State.giveResult (s : State) (r : CallResult) : State := { s with result := r }

end Sys2Proof.Machine
end

