-- ==== Sys2Proof/Machine/Calls.lean ====
section
/-! DEFINITION. The pure functions called by any agent: BYTE_COUNT, GET_BIT, SET_BIT (43_vector_buffer.md), CHUNK, REASSEMBLE (30_encoding.md), and the pseudo-instruction SHIFTCMD. -/

namespace Sys2Proof.Machine

/-- `BYTE_COUNT` (R161). -/
def execByteCount (n : Word32) (s : State) : Host.Outcome State Fault Refusal :=
  .next (s.giveResult (.count (byteCountOf n)))

/-- `GET_BIT` (R162). -/
def execGetBit (buf : List Byte) (i : Nat) (s : State) : Host.Outcome State Fault Refusal :=
  match listGetBit buf i with
  | some b => .next (s.giveResult (.bit b))
  | none => .fault (.bitIndex i)

/-- `SET_BIT` (R163) on the caller's byte array (log 13). -/
def execSetBit (buf : List Byte) (i : Nat) (v : Bit) (s : State) : Host.Outcome State Fault Refusal :=
  match listSetBit buf i v with
  | some buf' => .next (s.giveResult (.bytes buf'))
  | none => .fault (.bitIndex i)

/-- `CHUNK` (R75). -/
def execChunk (v : List Byte) (s : State) : Host.Outcome State Fault Refusal :=
  .next (s.giveResult (.packets (chunk s.cfg.C v)))

/-- `REASSEMBLE` (R76). -/
def execReassemble (ps : List Packet) (s : State) : Host.Outcome State Fault Refusal :=
  .next (s.giveResult (.bytes (reassemble ps)))

/-- `SHIFTCMD` (R84): expands to the `PKT` lines of one command, which come next in the schedule. -/
def execShiftcmd (n : Word32) (tms tdi : List Byte) (s : State) : Host.Outcome State Fault Refusal :=
  .next { s with agenda := (commandPackets s.cfg.C n tms tdi).map Turn.send ++ s.agenda }

end Sys2Proof.Machine
end

