-- ==== Sys2Proof/Machine/HostCommands.lean ====
section
/-! DEFINITION. The Host's commands: HOST.GETINFO, HOST.SETTCK, HOST.SHIFT, HOST.UNKNOWN (40_host_command_framer.md). Each runs on the state from whose TCP stream its bytes have been read. -/

namespace Sys2Proof.Machine

/-- `getinfo:` (R101): the capability string. -/
def execHostGetinfo (s : State) : Host.Outcome State Fault Refusal :=
  if s.hostReady then .next (s.tcpWrite (getinfoReply s.cfg.maxPayload)) else .fault .notTriggered

/-- `settck:` (R102): the same 4 bytes, and nothing else. -/
def execHostSettck (period : Word32) (s : State) : Host.Outcome State Fault Refusal :=
  if s.hostReady then .next (s.tcpWrite (le32 period)) else .fault .notTriggered

/-- The Host's own capacity check failed (R108, R177): per `HOST_CAP_POLICY` the session ends, or `2 * byte_count`
bytes are to be discarded. -/
def State.hostReject (s : State) (n : Word32) : State :=
  match s.cfg.hostCapPolicy with
  | .teardown => s.teardown .capacity
  | .drainAndContinue => { s.hostNote .capacity with drain := 2 * byteCountOf n }

/-- `shift:` (R103, R106): the command is in flight, with its header, its TMS packets and its TDI packets to be sent
in that order, each as a transport operation of its own (`State.hostSend`), and then its response to be collected
(R107; log 15); an over-capacity one is rejected before anything is sent (R108). -/
def execHostShift (n : Word32) (tms tdi : List Byte) (s : State) : Host.Outcome State Fault Refusal :=
  if s.hostReady then
    if s.cfg.CAP < byteCountOf n then .next (s.hostReject n)
    else .next { s with flight := some ⟨n, tms, tdi, commandPackets s.cfg.C n tms tdi, []⟩ }
  else .fault .notTriggered

/-- An unknown command (R104, R175): what was read is consumed, how much being the free value UNKNOWN_CONSUME (log 8),
a diagnostic is noted, the session goes on. -/
def execHostUnknown (seen : List Byte) (s : State) : Host.Outcome State Fault Refusal :=
  if s.hostReady then
    .next { s.hostNote .protocolMalformed with tcpIn := seen.drop (Config.unknownConsume seen) ++ s.tcpIn }
  else .fault .notTriggered

end Sys2Proof.Machine
end

