-- ==== Sys2Proof/Machine/Packets.lean ====
section
/-! DEFINITION. The packet framer state machine: PKT.HEADER, PKT.TMS, PKT.TDI (41_packet_reassembly.md). Each runs on the state from which the Transport has already taken its packet. -/

namespace Sys2Proof.Machine

/-- The `bit_count` of a header packet: its first four bytes (R71); nothing for a shorter packet. -/
def headerBitCount : Packet → Option Word32
  | b0 :: b1 :: b2 :: b3 :: _ => some (unle32 b0 b1 b2 b3)
  | _ => none

/-- A header accepted (R121): `bit_count` written, all three buffers zeroed, `offset` 0; a zero-length command goes
straight to `SHIFT` with `i` 0 (R124). -/
def State.acceptHeader (s : State) (n : Word32) : State :=
  if byteCountOf n = 0 then { s.zeroBuffers with bitCount := n, offset := 0, i := 0, phase := .shift }
  else { s.zeroBuffers with bitCount := n, offset := 0, phase := .receiveTms }

/-- `PKT.HEADER` (R121): the length is checked first, then the capacity (R180), before any write. -/
def execPktHeader (p : Packet) (s : State) : Host.Outcome State Fault Refusal :=
  if s.phase = .header then
    match headerBitCount p with
    | none => .next (s.raise .shortHeader)
    | some n =>
      if s.cfg.CAP < byteCountOf n then .next (s.raise .capacity)
      else .next (s.acceptHeader n)
  else .fault .notTriggered

/-- Whether a payload packet is refused by its length (R72, R122, R123): too short, or too long where
`EXCESS_POLICY = error` (R80). -/
def State.badPayload (s : State) (p : Packet) : Bool :=
  decide (p.length < s.need) || (decide (s.need < p.length) && decide (s.cfg.excessPolicy = .error))

/-- A payload packet (R122, R123): `need` bytes stored at `offset`, which advances by `C`; when the vector is
complete, `offset` is 0 again and `done` says where the Engine goes. -/
def State.payload (s : State) (b : BufId) (done : State → State) (p : Packet) : Host.Outcome State Fault Refusal :=
  if s.badPayload p then .next (s.raise .shortPacket)
  else if s.cfg.CAP < s.offset + s.need then .fault (.bufferIndex b (s.offset + s.need - 1))
  else if s.byteCount ≤ s.offset + s.cfg.C then
    .next (done { s.setBuf b ((s.buf b).pokeBytes s.offset (p.take s.need)) with offset := 0 })
  else
    .next { s.setBuf b ((s.buf b).pokeBytes s.offset (p.take s.need)) with offset := s.offset + s.cfg.C }

/-- `PKT.TMS` (R122): a complete TMS vector leads to `RECEIVE_TDI`. -/
def execPktTms (p : Packet) (s : State) : Host.Outcome State Fault Refusal :=
  if s.phase = .receiveTms then s.payload .tms (fun t => { t with phase := .receiveTdi }) p
  else .fault .notTriggered

/-- `PKT.TDI` (R123): a complete TDI vector starts the pass, with `i` 0. -/
def execPktTdi (p : Packet) (s : State) : Host.Outcome State Fault Refusal :=
  if s.phase = .receiveTdi then s.payload .tdi (fun t => { t with i := 0, phase := .shift }) p
  else .fault .notTriggered

end Sys2Proof.Machine
end

