-- ==== Sys2Proof/Machine/Resets.lean ====
section
/-! DEFINITION. The two resets: XRESET and POR (70_reset_and_hazards.md). -/

namespace Sys2Proof.Machine

/-- `XRESET` taken between operations (R201): `HEADER`, counters 0, both queues empty, nothing else. R201's pseudocode is
followed where its last sentence says that in `HEADER` with empty queues nothing changes: there `i` (left at `bit_count`
by a pass) and `offset` (left by an abort) become 0 as well; nothing reads them there (log 32). A command the Host has in
flight, its unsent packets too, stays so: only a teardown ends it (log 33). -/
def State.xresetTaken (s : State) : State :=
  { s with phase := .header, offset := 0, i := 0, rxQ := [], txQ := [], xresetHeld := false }

/-- `XRESET` (R201): in `SHIFT` it is held by the Host until after `SHIFT.RETURN` (R144, R179; log 10). -/
def execXreset (s : State) : Host.Outcome State Fault Refusal :=
  if s.phase = .shift then .next { s with xresetHeld := true } else .next s.xresetTaken

/-- `POR` (R200, R34): every Engine register at its power-on value, the buffers and pin levels free (logs 4, 5), both
queues empty; the Target, the Host and the pin events already performed are not touched (log 28). -/
def execPor (s : State) : Host.Outcome State Fault Refusal :=
  .next { s with
    phase := .header
    bitCount := 0
    offset := 0
    i := 0
    tmsBuf := Memory.poweredOn s.powerOns .tms
    tdiBuf := Memory.poweredOn s.powerOns .tdi
    tdoBuf := Memory.poweredOn s.powerOns .tdo
    err := Err.clear
    tck := Config.pinReset s.powerOns .tck
    tms := Config.pinReset s.powerOns .tms
    tdi := Config.pinReset s.powerOns .tdi
    rxQ := []
    txQ := []
    powerOns := s.powerOns + 1 }

end Sys2Proof.Machine
end

