-- ==== Sys2Proof/Machine/Shift.lean ====
section
/-! DEFINITION. The bit-bang pass and the return of the TDO vector: SHIFT.CYCLE, SHIFT.RETURN (42_shift_pass.md). -/

namespace Sys2Proof.Machine

/-- The pin events of one whole JTAG cycle with TDI level `d` and TMS level `m` (R141). -/
def State.jtagCycle (s : State) (d m : Bit) : State := s.cycleUpTo d m 5

/-- The level sampled in that cycle: the Target's answer to the levels just driven (R147). -/
def State.jtagSample (s : State) (d m : Bit) : Bit := (s.target.apply m d).2

/-- `SHIFT.CYCLE` (R141): the five pin events with bit `i` of `tdi_buf` and `tms_buf`, then the sample stored in bit
`i` of `tdo_buf`, then `i + 1`. The cycle is one step (R25, D15); a power-on that cuts it short is the schedule's
`porDuring` (log 30). -/
def execShiftCycle (s : State) : Host.Outcome State Fault Refusal :=
  if s.phase = .shift ∧ s.i < s.bitCount.toNat then
    if s.cfg.CAP ≤ s.i / 8 then .fault (.bufferIndex .tdo (s.i / 8))
    else
      .next { s.jtagCycle (s.tdiBuf.getBit s.i) (s.tmsBuf.getBit s.i) with
        tdoBuf := s.tdoBuf.setBit s.i (s.jtagSample (s.tdiBuf.getBit s.i) (s.tmsBuf.getBit s.i))
        i := s.i + 1 }
  else .fault .notTriggered

/-- The cycle that would run next, cut short after its first `k` pin events (R200); no cycle is running outside
`SHIFT` or after the last one (log 30). -/
def State.cutCycle (s : State) (k : Nat) : State :=
  if s.phase = .shift ∧ s.i < s.bitCount.toNat then
    s.cycleUpTo (s.tdiBuf.getBit s.i) (s.tmsBuf.getBit s.i) k
  else s

/-- `SHIFT.RETURN` (R143): the `byte_count` bytes of `tdo_buf` go out in `C`-byte packets, and the Engine returns to
`HEADER`; one step, as R143 allows. -/
def execShiftReturn (s : State) : Host.Outcome State Fault Refusal :=
  if s.phase = .shift ∧ s.i = s.bitCount.toNat then
    if s.cfg.CAP < s.byteCount then .fault (.bufferIndex .tdo (s.byteCount - 1))
    else .next { s.emitPackets (chunk s.cfg.C (s.tdoBuf.peekBytes s.byteCount)) with phase := .header }
  else .fault .notTriggered

end Sys2Proof.Machine
end

