-- ==== Sys2Proof/Machine/Dispatch.lean ====
section
/-! DEFINITION. The meaning of each operation, one arm per row of spec/opcode_table.json. -/

namespace Sys2Proof.Machine

open Sys2Proof

def exec (i : Instr) (s : State) : Host.Outcome State Fault Refusal :=
  match i with
  | .pktHeader p => Sys2Proof.Machine.execPktHeader p s
  | .pktTms p => Sys2Proof.Machine.execPktTms p s
  | .pktTdi p => Sys2Proof.Machine.execPktTdi p s
  | .shiftCycle => Sys2Proof.Machine.execShiftCycle s
  | .shiftReturn => Sys2Proof.Machine.execShiftReturn s
  | .xreset => Sys2Proof.Machine.execXreset s
  | .por => Sys2Proof.Machine.execPor s
  | .byteCount n => Sys2Proof.Machine.execByteCount n s
  | .getBit buf k => Sys2Proof.Machine.execGetBit buf k s
  | .setBit buf k v => Sys2Proof.Machine.execSetBit buf k v s
  | .chunk v => Sys2Proof.Machine.execChunk v s
  | .reassemble ps => Sys2Proof.Machine.execReassemble ps s
  | .hostGetinfo => Sys2Proof.Machine.execHostGetinfo s
  | .hostSettck period => Sys2Proof.Machine.execHostSettck period s
  | .hostShift n tms tdi => Sys2Proof.Machine.execHostShift n tms tdi s
  | .hostUnknown seen => Sys2Proof.Machine.execHostUnknown seen s
  | .shiftcmd n tms tdi => Sys2Proof.Machine.execShiftcmd n tms tdi s

end Sys2Proof.Machine
end

