-- ==== Sys2Proof/Machine/Environment.lean ====
section
/-! DEFINITION. The moves that are no operation of the opcode table: arrivals from outside, failures and timeouts, and the Host's collection of a response (40_host_command_framer.md R105 to R111). -/

namespace Sys2Proof.Machine

/-- `xport_send` puts the next packet of the command in flight on the transport (R103, R106); a zero-length command is
over with its header packet (log 31). -/
def State.hostSend (s : State) (f : Flight) (p : Packet) (ps : List Packet) : State :=
  (s.sendPackets [p]).hostAdvance { f with unsent := ps }

/-- `xport_recv_exact` takes the next response packet (R107): exactly the bytes still wanted, whatever the packet
division; bytes beyond them stay queued (R205). -/
def State.hostCollect (s : State) (f : Flight) (q : Packet) (qs : List Packet) : State :=
  let want := byteCountOf f.bitCount - f.tdo.length
  { s with txQ := if q.length ≤ want then qs else q.drop want :: qs }.hostAdvance
    { f with tdo := f.tdo ++ q.take want }

/-- `drain_and_continue` reads and discards what has arrived of a rejected payload (R108). -/
def State.hostDrain (s : State) : State :=
  { s with tcpIn := s.tcpIn.drop s.drain, drain := s.drain - s.tcpIn.length }

/-- The client's bytes join the stream of an open session (R105). -/
def State.tcpArrive (s : State) (bs : List Byte) : State :=
  if s.session = .opened then { s with tcpIn := s.tcpIn ++ bs } else s

/-- A client connects: a torn-down session is replaced by a new one with buffers of its own (R36); a second client is
not served (R109; log 25). -/
def State.connect (s : State) : State :=
  if s.session = .tornDown then { s with session := .opened, tcpIn := [], tcpOut := [] } else s

/-- End of data, or a failed read or write (R174, R111): fatal to an open session. -/
def State.connectionLost (s : State) : State :=
  if s.session = .opened then s.teardown .connectionFatal else s

/-- A timeout may occur whenever a transport operation of the Host is waiting: while it forwards the packets of a
command and while it awaits the response (R103, R110, R176). -/
def State.transportTimeout (s : State) : State :=
  if s.session = .opened ∧ s.flight.isSome then s.teardown .transportTimeout else s

/-- Why the step has nothing left to run (R213; log 9). -/
def State.idleFault (s : State) : Fault :=
  match s.phase with
  | .header => .runOver
  | .receiveTms => .stuckReceiving
  | .receiveTdi => .stuckReceiving
  | .shift => .notTriggered

end Sys2Proof.Machine
end

