-- ==== Sys2Proof/Machine/Fetch.lean ====
section
/-! DEFINITION. Which agent moves next, and the operation it runs: the schedule, the delivery of packets, and the reading of commands (R70, R120, R140, R179, R180). -/

namespace Sys2Proof.Machine

/-- What the machine does next. -/
inductive Fetched where
  /-- an operation runs on this state, from which what carries it has been taken. -/
  | run (i : Instr) (s : State)
  /-- a move that is no operation. -/
  | move (s : State)
  /-- something the model gives no meaning. -/
  | refuse (r : Refusal)
  /-- nothing is left to run. -/
  | stop (f : Fault)
  deriving DecidableEq, Repr

/-- The part of the state the decoder looks at (R70). -/
def State.control (s : State) : Control := ⟨s.phase, s.bitCount, s.i⟩

/-- The Engine's next operation, if it has one: in `SHIFT` only the pass (R140, R144); between operations XRESET comes
before a waiting packet (R180); the packet at the head of `rx_q` is consumed (R32, R120). -/
def engineMove (s : State) : Option Fetched :=
  if s.phase = .shift then
    match decode s.cfg s.control .internal with
    | .ok (i, _) => some (.run i s)
    | .error _ => none
  else if s.xresetHeld then some (.run .xreset s)
  else
    match s.rxQ with
    | [] => none
    | p :: ps =>
      match decode s.cfg s.control (.packetIn p) with
      | .ok (i, _) => some (.run i { s with rxQ := ps })
      | .error _ => some (.refuse (.packetTooLong p.length))

/-- The Host's next move, if it has one: it sends the next packet of the command in flight (R103), or collects its
response (R107), discards a rejected payload (R108), or reads the next command once all of it has arrived (R105,
R109). An XRESET it holds keeps it from the next command only: between SHIFT.RETURN and the taking of an XRESET held
since `SHIFT` a scheduled Host may still read response packets, which are then not discarded (log 10). -/
def hostMove (s : State) : Option Fetched :=
  if s.session = .tornDown then none
  else
    match s.flight with
    | some f =>
      match f.unsent with
      | p :: ps => some (.move (s.hostSend f p ps))
      | [] =>
        match s.txQ with
        | [] => none
        | q :: qs => some (.move (s.hostCollect f q qs))
    | none =>
      if s.drain ≠ 0 then if s.tcpIn = [] then none else some (.move s.hostDrain)
      else if s.xresetHeld then none
      else
        match decode s.cfg s.control (.tcp s.tcpIn) with
        | .ok (i, rest) => some (.run i { s with tcpIn := rest })
        | .error _ => none

/-- The Engine goes before the Host (log 2). -/
def autoMove (s : State) : Option Fetched :=
  match engineMove s with
  | some m => some m
  | none => hostMove s

/-- With nothing scheduled and nothing to do, a waiting transport operation of the Host times out (R176; log 12);
otherwise the run ends or is stuck (R213). -/
def idle (s : State) : Fetched :=
  if s.session = .opened ∧ s.flight.isSome then .move s.transportTimeout else .stop s.idleFault

/-- One entry of the schedule, `rest` being the entries after it. The entry `xreset` is the bare event of R201 and may
stand at any time; where the Host's own command is in flight R111 gives the Host no such move, and the model keeps the
command in flight: the Host goes on sending its packets, which the Engine then decodes as headers (log 33). -/
def takeTurn (s : State) (t : Turn) (rest : List Turn) : Fetched :=
  let s' := { s with agenda := rest }
  match t with
  | .por => .run .por s'
  | .porDuring k => .run .por (s'.cutCycle k)
  | .xreset => .run .xreset s'
  | .engine => (engineMove s').getD (.move s')
  | .host => (hostMove s').getD (.move s')
  | .settle => (autoMove s).getD (.move s')
  | .send p => if s.cfg.C < p.length then .refuse (.packetTooLong p.length) else .move (s'.sendPackets [p])
  | .call c => .run (decodeCall c) s'
  | .tcp bs => .move (s'.tcpArrive bs)
  | .connect => .move s'.connect
  | .tcpClosed => .move s'.connectionLost
  | .ioFailure => .move s'.connectionLost
  | .timeout => .move s'.transportTimeout
  | .takeOut => .move { s' with txQ := s'.txQ.tail }
  | .takeTcp n => .move { s' with tcpOut := s'.tcpOut.drop n }

/-- What the machine does next: the schedule's next entry, or with none left what the agents do of themselves. -/
def fetch (s : State) : Fetched :=
  match s.agenda with
  | [] => (autoMove s).getD (idle s)
  | t :: rest => takeTurn s t rest

/-- The state in which operation `i` is the next to run: what carries it stands where `fetch` looks (log 3). -/
def State.place (s : State) (i : Instr) : State :=
  match i with
  | .pktHeader p =>
    { s with phase := .header, xresetHeld := false, rxQ := p :: s.rxQ, agenda := .engine :: s.agenda }
  | .pktTms p =>
    { s with phase := .receiveTms, xresetHeld := false, rxQ := p :: s.rxQ, agenda := .engine :: s.agenda }
  | .pktTdi p =>
    { s with phase := .receiveTdi, xresetHeld := false, rxQ := p :: s.rxQ, agenda := .engine :: s.agenda }
  | .shiftCycle => { s with phase := .shift, bitCount := 1, i := 0, agenda := .engine :: s.agenda }
  | .shiftReturn => { s with phase := .shift, i := s.bitCount.toNat, agenda := .engine :: s.agenda }
  | .xreset => { s with agenda := .xreset :: s.agenda }
  | .por => { s with agenda := .por :: s.agenda }
  | .byteCount n => { s with agenda := .call (.byteCount n) :: s.agenda }
  | .getBit buf k => { s with agenda := .call (.getBit buf k) :: s.agenda }
  | .setBit buf k v => { s with agenda := .call (.setBit buf k v) :: s.agenda }
  | .chunk v => { s with agenda := .call (.chunk v) :: s.agenda }
  | .reassemble ps => { s with agenda := .call (.reassemble ps) :: s.agenda }
  | .shiftcmd n tms tdi => { s with agenda := .call (.shiftcmd n tms tdi) :: s.agenda }
  | .hostGetinfo => placeTcp s .hostGetinfo
  | .hostSettck period => placeTcp s (.hostSettck period)
  | .hostShift n tms tdi => placeTcp s (.hostShift n tms tdi)
  | .hostUnknown seen => placeTcp s (.hostUnknown seen)
where
  /-- A TCP command placed as the whole unread stream of a Host that is between commands. -/
  placeTcp (s : State) (i : Instr) : State :=
    { s with
      session := .opened, flight := none, drain := 0, xresetHeld := false
      tcpIn := encodeTcp i, agenda := .host :: s.agenda }

end Sys2Proof.Machine
end

