-- ==== Sys2Proof/Machine/Step.lean ====
section
/-! DEFINITION. One step of the machine. -/

namespace Sys2Proof.Machine

/-- One step: the operation that `fetch` selects runs if its operands are legal; a move happens; or the machine
stops by name. -/
def step (s : State) : Host.Outcome State Fault Refusal :=
  match fetch s with
  | .run i t => if i.wf t.cfg then exec i t else .refused (.illFormed i)
  | .move t => .next t
  | .refuse r => .refused r
  | .stop f => .fault f

/-- The state with the operation of a table word placed where the next step runs it (logs 3, 14); a word that is no
operation is placed as the packet it is, which the step refuses. -/
def State.withFetchWord (s : State) (nbits w : Nat) : State :=
  match decodeTableWord nbits w with
  | some i => s.place i
  | none => s.place (.pktHeader (tablePacket nbits w))

end Sys2Proof.Machine
end

