-- ==== Sys2Proof/Machine/Script.lean ====
section
/-! DEFINITION. The script notation of 30_encoding.md R83 and R84 as data: what its stimulus lines schedule and what its EXPECT lines check. -/

namespace Sys2Proof.Machine

/-- A line of a script (R83). -/
inductive ScriptLine where
  | pkt (p : Packet)
  | xreset
  | por
  | tcp (bs : List Byte)
  | shiftcmd (n : Word32) (tms tdi : List Byte)
  | expectOut (q : Packet)
  | expectTcp (bs : List Byte)
  | expectState (ph : Phase)
  | expectErr (e : Err)
  | expectPins (tck tms tdi : Bit)
  deriving DecidableEq, Repr

/-- The schedule of a line: each stimulus, after which Engine and Host move until both wait; an EXPECT line takes what
it has checked from its queue. A `PKT` line is always a packet put on the transport, also after a `TCP` line whose command
the Host has sent by itself, and what `EXPECT OUT` sees in `tx_q` is what the Host has not collected (log 26). -/
def ScriptLine.turns : ScriptLine → List Turn
  | .pkt p => [.send p, .settle]
  | .xreset => [.xreset, .settle]
  | .por => [.por, .settle]
  | .tcp bs => [.tcp bs, .settle]
  | .shiftcmd n tms tdi => [.call (.shiftcmd n tms tdi), .settle]
  | .expectOut _ => [.takeOut]
  | .expectTcp bs => [.takeTcp bs.length]
  | .expectState _ => []
  | .expectErr _ => []
  | .expectPins _ _ _ => []

/-- What an EXPECT line says of the state it stands at; a stimulus says nothing. -/
def ScriptLine.holds (s : State) : ScriptLine → Bool
  | .pkt _ => true
  | .xreset => true
  | .por => true
  | .tcp _ => true
  | .shiftcmd _ _ _ => true
  | .expectOut q => decide (s.txQ.head? = some q)
  | .expectTcp bs => bs.isPrefixOf s.tcpOut
  | .expectState ph => decide (s.phase = ph)
  | .expectErr e => decide (s.err = e)
  | .expectPins k m d => decide (s.tck = k) && decide (s.tms = m) && decide (s.tdi = d)

/-- Whether the Host finds in an unread stream a command that sends packets: a whole `shift:` within capacity, other
commands before it being passed over as the Host passes them (R103, R104, R108). The first argument bounds the number
of commands. -/
def streamSends (cfg : Config) : Nat → List Byte → Bool
  | 0, _ => false
  | fuel + 1, stream =>
    match decodeTcp cfg.CAP stream with
    | .ok (.hostShift n _ _, rest) =>
      if cfg.CAP < byteCountOf n then
        match cfg.hostCapPolicy with
        | .teardown => false
        | .drainAndContinue => streamSends cfg fuel (rest.drop (2 * byteCountOf n))
      else true
    | .ok (.hostUnknown seen, _) => streamSends cfg fuel (seen.drop (Config.unknownConsume seen))
    | .ok (_, rest) => streamSends cfg fuel rest
    | .error _ => false

/-- The Host has a packet left to send (R213): of its command in flight, or of a command in the stream of its session,
also while it holds an XRESET that is still to be taken. -/
def State.packetLeft (s : State) : Bool :=
  decide (s.session = .opened) &&
    (s.flight.any (fun f => !f.unsent.isEmpty) || streamSends s.cfg (s.tcpIn.length + 1) (s.tcpIn.drop s.drain))

/-- The end of a run (R213): `HEADER`, `rx_q` empty, the Host has no packet left to send; and the schedule, which may
bring more, is at its end (log 9). A response or a command that sends nothing may still stand unread. -/
def State.runOver (s : State) : Bool :=
  decide (s.phase = .header) && s.rxQ.isEmpty && s.agenda.isEmpty && !s.packetLeft

/-- A good end (R213): in addition no flag is set and the Host has read every response byte, so that `tx_q` is empty
and no command of its own still awaits one. -/
def State.goodEnd (s : State) : Bool :=
  s.runOver && decide (s.err = Err.clear) && s.txQ.isEmpty && s.flight.isNone

end Sys2Proof.Machine
end

