-- ==== Sys2Proof/Safety.lean ====
section
/-! DEFINITION. The words the claims are made in: the invariants of reachable states, what a chunking is, and what a whole pass does at the pins. -/

namespace Sys2Proof.Machine

/-- The value of four little-endian bytes, as a natural number (R51). -/
def leValue (b0 b1 b2 b3 : Byte) : Nat :=
  b0.toNat + 256 * b1.toNat + 65536 * b2.toNat + 16777216 * b3.toNat

/-- `ps` is `v` cut as R75 says: in order, nothing added or dropped, as few packets as hold it, every packet but the
last of exactly `c` bytes, none empty, none longer. -/
structure IsChunking (c : Nat) (v : List Byte) (ps : List Packet) : Prop where
  joined : ps.flatten = v
  enough : v.length ≤ c * ps.length
  fewest : c * ps.length < v.length + c
  full : ∀ q ∈ ps.dropLast, q.length = c
  bounded : ∀ q ∈ ps, 1 ≤ q.length ∧ q.length ≤ c

/-- The level of bit `j` of a buffer: bit `j % 8` of byte `j / 8` (R52). -/
def levelAt (m : Memory) (j : Nat) : Bit := (m.peek (j / 8)).getLsbD (j % 8)

/-- The Target after the first cycles of a pass over a TMS and a TDI buffer (R147). -/
def targetAt (t : Target) (tms tdi : Memory) : Nat → Target
  | 0 => t
  | k + 1 => ((targetAt t tms tdi k).apply (levelAt tms k) (levelAt tdi k)).1

/-- The TDO level sampled in cycle `k` of a pass (R147, R148). -/
def sampleAt (t : Target) (tms tdi : Memory) (k : Nat) : Bit :=
  ((targetAt t tms tdi k).apply (levelAt tms k) (levelAt tdi k)).2

/-- The five pin events of one cycle, in the order of R141. -/
def cycleEvents (tdi tms v : Bit) : List PinEvent :=
  [.write .tck false, .write .tdi tdi, .write .tms tms, .write .tck true, .read v]

/-- The pin trace of the first cycles of a pass (R142). -/
def passTrace (t : Target) (tms tdi : Memory) : Nat → List PinEvent
  | 0 => []
  | k + 1 => passTrace t tms tdi k ++ cycleEvents (levelAt tdi k) (levelAt tms k) (sampleAt t tms tdi k)

/-- The Target and the level on TDO once the first `k` pin events of a cycle with these levels are performed: the
Target latches at the fourth, the rising edge (R56, R141). -/
def clockedAfter (s : State) (tms tdi : Bit) (k : Nat) : Target × Bit :=
  if 4 ≤ k then s.target.apply tms tdi else (s.target, s.tdo)

/-- The Engine is in one of the two receive states. -/
abbrev State.receiving (s : State) : Prop := s.phase = .receiveTms ∨ s.phase = .receiveTdi

/-- The Engine is left to itself: nothing is scheduled (the Engine goes before the Host) and no XRESET waits. -/
abbrev State.undisturbed (s : State) : Prop := s.agenda = [] ∧ s.xresetHeld = false

/-- The invariants of reachable states (R33, with R27 and the channel bounds of R7). The contents of the received
vectors (R33 item 4) are a claim of their own. -/
structure State.Inv (s : State) : Prop where
  /-- R6. -/
  params : s.cfg.valid
  /-- every buffer is in canonical form; R33 item 6. -/
  canonical : ∀ b, (s.buf b).wf s.cfg.CAP = true
  /-- R33 item 1. -/
  accepted : s.bitCount.toNat ≤ 8 * s.cfg.CAP
  /-- R33 item 2. -/
  position : s.receiving → 1 ≤ s.byteCount ∧ s.cfg.C ∣ s.offset ∧ s.offset < s.byteCount
  /-- R33 item 3. -/
  cycle : s.phase = .shift → s.i ≤ s.bitCount.toNat
  /-- R33 item 5: before the first accepted header every buffer holds its reset contents. -/
  fresh : ∀ b, (s.buf b).fill ≠ .zero → (s.buf b).cells = []
  /-- R33 item 5: the three buffers are zeroed together. -/
  together : ∀ b, (s.buf b).fill = .zero ↔ s.tmsBuf.fill = .zero
  /-- R121: a command past its header has zeroed buffers. -/
  filled : s.phase ≠ .header → s.tmsBuf.fill = .zero
  /-- R33 item 5: bytes at and beyond `byte_count` are 0. -/
  tail : s.tmsBuf.fill = .zero → ∀ b a, s.byteCount ≤ a → (s.buf b).peek a = 0
  /-- R27, R148: bits of `tdo_buf` at and beyond `bit_count` are 0. -/
  tdoTail : s.tmsBuf.fill = .zero → ∀ j, s.bitCount.toNat ≤ j → s.tdoBuf.getBit j = false
  /-- R141: in a pass no bit of `tdo_buf` is written before its cycle. -/
  unsampled : s.phase = .shift → ∀ j, s.i ≤ j → s.tdoBuf.getBit j = false
  /-- R27: `tdo_buf` is output-only: zero until the pass. -/
  unwritten : s.receiving → ∀ j, s.tdoBuf.getBit j = false
  /-- R7: a packet inbound has at most `C` bytes. -/
  inbound : ∀ p ∈ s.rxQ, p.length ≤ s.cfg.C
  /-- R7: a packet outbound has 1 to `C` bytes. -/
  outbound : ∀ q ∈ s.txQ, 1 ≤ q.length ∧ q.length ≤ s.cfg.C
  /-- R103, R107, R108: a command in flight was accepted, its packets fit the transport, and some of them are to be
  sent or its response is incomplete. -/
  inFlight : ∀ f, s.flight = some f → byteCountOf f.bitCount ≤ s.cfg.CAP ∧ (∀ p ∈ f.unsent, p.length ≤ s.cfg.C) ∧
    (f.unsent = [] → f.tdo.length < byteCountOf f.bitCount)

end Sys2Proof.Machine
end

