-- ==== Sys2Proof/Certificates/Slice0/Obligations.lean ====
section
/-! DEFINITION. The statements for the provers. -/

open Sys2Proof Sys2Proof.Machine

/-! ### The packet framer (41_packet_reassembly.md, 60_exceptions.md) -/

/-- R173: a header packet of fewer than 4 bytes is dropped; only the flag changes. When it is at the head of rx_q the
step consumes it and does just that, where nothing is scheduled (the Engine goes before the Host: log 2) and no XRESET is
held (log 10): premises of the model's own. -/
def Obligations.ShortHeaderPacketIsDropped : Prop :=
  ∀ (s : State) (p : Packet) (ps : List Packet), s.phase = .header → p.length < 4 →
    exec (.pktHeader p) s = .next { s with err := { s.err with shortHeader := true } } ∧
    (s.cfg.valid → s.undisturbed → s.rxQ = p :: ps →
      step s = .next { s with rxQ := ps, err := { s.err with shortHeader := true } })

/-- R171: a header whose byte_count exceeds CAP (bit_count > 8 * CAP) is rejected before any write; only the flag
changes, so the Engine stays in HEADER and no packet is emitted. -/
def Obligations.OverCapacityHeaderIsRejected : Prop :=
  ∀ (s : State) (b0 b1 b2 b3 : Byte) (rest : Packet), s.phase = .header →
    8 * s.cfg.CAP < leValue b0 b1 b2 b3 →
    exec (.pktHeader (b0 :: b1 :: b2 :: b3 :: rest)) s = .next { s with err := { s.err with capacity := true } }

/-- R121, an accepted header of a non-empty command: bit_count is the little-endian value of the first four bytes,
all three buffers are zeroed, offset is 0, the Engine receives TMS; nothing else changes. -/
def Obligations.AcceptedHeaderStartsReception : Prop :=
  ∀ (s : State) (b0 b1 b2 b3 : Byte) (rest : Packet), s.phase = .header →
    0 < leValue b0 b1 b2 b3 → leValue b0 b1 b2 b3 ≤ 8 * s.cfg.CAP →
    ∃ t, exec (.pktHeader (b0 :: b1 :: b2 :: b3 :: rest)) s = .next t ∧
      t.bitCount.toNat = leValue b0 b1 b2 b3 ∧
      (∀ b a, (t.buf b).peek a = 0) ∧
      t = { s with
        bitCount := t.bitCount, tmsBuf := t.tmsBuf, tdiBuf := t.tdiBuf, tdoBuf := t.tdoBuf
        offset := 0, phase := .receiveTms }

/-- R124: a header with bit_count 0 goes straight to SHIFT with i = 0 and zeroed buffers, no pin moves, and
SHIFT.RETURN then emits nothing and returns to HEADER. -/
def Obligations.ZeroLengthCommandReturnsAtOnce : Prop :=
  ∀ (s : State) (rest : Packet), s.cfg.valid → s.phase = .header →
    ∃ t, exec (.pktHeader (0 :: 0 :: 0 :: 0 :: rest)) s = .next t ∧
      (∀ b a, (t.buf b).peek a = 0) ∧
      t = { s with
        bitCount := 0, tmsBuf := t.tmsBuf, tdiBuf := t.tdiBuf, tdoBuf := t.tdoBuf
        offset := 0, i := 0, phase := .shift } ∧
      exec .shiftReturn t = .next { t with phase := .header }

/-- R122, an accepted TMS packet: need bytes land at offset, every other byte of the buffer is kept, offset advances by
C and, once it reaches byte_count, is 0 with the Engine receiving TDI; nothing else changes. -/
def Obligations.TmsPacketIsStored : Prop :=
  ∀ (s : State) (p : Packet) (bc need : Nat), s.phase = .receiveTms →
    bc = (s.bitCount.toNat + 7) / 8 → need = min s.cfg.C (bc - s.offset) → s.offset + need ≤ s.cfg.CAP →
    (p.length = need ∨ (need < p.length ∧ s.cfg.excessPolicy = .ignore)) →
    ∃ t, exec (.pktTms p) s = .next t ∧
      (∀ a, t.tmsBuf.peek a =
        if s.offset ≤ a ∧ a < s.offset + need then p.getD (a - s.offset) 0 else s.tmsBuf.peek a) ∧
      (if bc ≤ s.offset + s.cfg.C then t.offset = 0 ∧ t.phase = .receiveTdi
        else t.offset = s.offset + s.cfg.C ∧ t.phase = .receiveTms) ∧
      t = { s with tmsBuf := t.tmsBuf, offset := t.offset, phase := t.phase }

/-- R123, an accepted TDI packet: as for TMS with tdi_buf; a complete vector starts the pass with i = 0. -/
def Obligations.TdiPacketIsStored : Prop :=
  ∀ (s : State) (p : Packet) (bc need : Nat), s.phase = .receiveTdi →
    bc = (s.bitCount.toNat + 7) / 8 → need = min s.cfg.C (bc - s.offset) → s.offset + need ≤ s.cfg.CAP →
    (p.length = need ∨ (need < p.length ∧ s.cfg.excessPolicy = .ignore)) →
    ∃ t, exec (.pktTdi p) s = .next t ∧
      (∀ a, t.tdiBuf.peek a =
        if s.offset ≤ a ∧ a < s.offset + need then p.getD (a - s.offset) 0 else s.tdiBuf.peek a) ∧
      (if bc ≤ s.offset + s.cfg.C then t.offset = 0 ∧ t.i = 0 ∧ t.phase = .shift
        else t.offset = s.offset + s.cfg.C ∧ t.i = s.i ∧ t.phase = .receiveTdi) ∧
      t = { s with tdiBuf := t.tdiBuf, offset := t.offset, i := t.i, phase := t.phase }

/-- R172, R181: a payload packet shorter than its position needs, or longer under EXCESS_POLICY = error, sets the flag
and returns the Engine to HEADER; nothing of it is stored and nothing else changes. That offset, too, keeps its value, as
R181 says, where R24 has it 0 in HEADER, is log 29. -/
def Obligations.BadPayloadPacketAborts : Prop :=
  ∀ (s : State) (p : Packet) (need : Nat), need = min s.cfg.C ((s.bitCount.toNat + 7) / 8 - s.offset) →
    (p.length < need ∨ (need < p.length ∧ s.cfg.excessPolicy = .error)) →
    (s.phase = .receiveTms →
      exec (.pktTms p) s = .next { s with err := { s.err with shortPacket := true }, phase := .header }) ∧
    (s.phase = .receiveTdi →
      exec (.pktTdi p) s = .next { s with err := { s.err with shortPacket := true }, phase := .header })

/-- R127: an operation whose pair of state and event is not in the table has no step; the name of the stop is the
model's (log 19). -/
def Obligations.UntriggeredOperationsHaveNoStep : Prop :=
  ∀ (s : State) (p : Packet),
    (s.phase ≠ .header → exec (.pktHeader p) s = .fault .notTriggered) ∧
    (s.phase ≠ .receiveTms → exec (.pktTms p) s = .fault .notTriggered) ∧
    (s.phase ≠ .receiveTdi → exec (.pktTdi p) s = .fault .notTriggered) ∧
    (¬ (s.phase = .shift ∧ s.i < s.bitCount.toNat) → exec .shiftCycle s = .fault .notTriggered) ∧
    (¬ (s.phase = .shift ∧ s.i = s.bitCount.toNat) → exec .shiftReturn s = .fault .notTriggered)

/-- R125, R126: fed the packets that chunk_C makes of a vector of byte_count bytes, the Engine consumes exactly those
packets and then holds the vector in the first byte_count bytes of the TMS buffer, other bytes and state kept. -/
def Obligations.TmsReceptionReassemblesTheVector : Prop :=
  ∀ (s : State) (v : List Byte) (rest : List Packet), s.cfg.valid → s.undisturbed → s.phase = .receiveTms →
    s.offset = 0 → v.length = (s.bitCount.toNat + 7) / 8 → 1 ≤ v.length → v.length ≤ s.cfg.CAP →
    s.rxQ = chunk s.cfg.C v ++ rest →
    ∃ t, core.run (chunk s.cfg.C v).length s = .next t ∧
      (∀ a, t.tmsBuf.peek a = if a < v.length then v.getD a 0 else s.tmsBuf.peek a) ∧
      t = { s with rxQ := rest, tmsBuf := t.tmsBuf, phase := .receiveTdi }

/-- R125, R126: the same for the TDI vector, after which the Engine is in SHIFT with i = 0. -/
def Obligations.TdiReceptionReassemblesTheVector : Prop :=
  ∀ (s : State) (v : List Byte) (rest : List Packet), s.cfg.valid → s.undisturbed → s.phase = .receiveTdi →
    s.offset = 0 → v.length = (s.bitCount.toNat + 7) / 8 → 1 ≤ v.length → v.length ≤ s.cfg.CAP →
    s.rxQ = chunk s.cfg.C v ++ rest →
    ∃ t, core.run (chunk s.cfg.C v).length s = .next t ∧
      (∀ a, t.tdiBuf.peek a = if a < v.length then v.getD a 0 else s.tdiBuf.peek a) ∧
      t = { s with rxQ := rest, tdiBuf := t.tdiBuf, i := 0, phase := .shift }

/-- R204: after an abort in the middle of a command, the next packet waiting is decoded as a header. Premises of the
model's own: nothing is scheduled (log 2) and no XRESET is held (log 10). That the abort keeps offset (R181), where R24
has it 0 in HEADER, is log 29. -/
def Obligations.PacketAfterAbortIsDecodedAsHeader : Prop :=
  ∀ (s : State) (p q : Packet) (qs : List Packet), s.receiving → s.undisturbed → s.rxQ = p :: q :: qs →
    p.length < min s.cfg.C ((s.bitCount.toNat + 7) / 8 - s.offset) → q.length ≤ s.cfg.C →
    ∃ t, step s = .next t ∧
      t = { s with rxQ := q :: qs, err := { s.err with shortPacket := true }, phase := .header } ∧
      step t = exec (.pktHeader q) { t with rxQ := qs }

/-- R63: what a payload packet's bytes are never changes the state that decodes the next packet, nor whether this one
is accepted: only its length does. -/
def Obligations.PayloadBytesNeverDecideDecoding : Prop :=
  ∀ (s t u : State) (p q : Packet), p.length = q.length →
    (exec (.pktTms p) s = .next t → exec (.pktTms q) s = .next u →
      t.phase = u.phase ∧ t.offset = u.offset ∧ t.bitCount = s.bitCount ∧ u.bitCount = s.bitCount ∧ t.err = u.err) ∧
    (exec (.pktTdi p) s = .next t → exec (.pktTdi q) s = .next u →
      t.phase = u.phase ∧ t.offset = u.offset ∧ t.bitCount = s.bitCount ∧ u.bitCount = s.bitCount ∧ t.err = u.err)

/-- R64: an accepted header leaves the same state whatever the three buffers held before: nothing of an older command
can be seen later. -/
def Obligations.AcceptedHeaderHidesOldVectors : Prop :=
  ∀ (s : State) (b0 b1 b2 b3 : Byte) (rest : Packet) (m1 m2 m3 : Memory), s.phase = .header →
    leValue b0 b1 b2 b3 ≤ 8 * s.cfg.CAP →
    exec (.pktHeader (b0 :: b1 :: b2 :: b3 :: rest)) { s with tmsBuf := m1, tdiBuf := m2, tdoBuf := m3 } =
      exec (.pktHeader (b0 :: b1 :: b2 :: b3 :: rest)) s

/-! ### The bit-bang pass (42_shift_pass.md) -/

/-- R141: one cycle performs TCK low, TDI, TMS, TCK high and one TDO sample, in that order; the sample is the Target's
answer to the levels driven, and lands in bit i of tdo_buf alone; i grows by 1; nothing else changes. That the Target
answers at the rising edge and its level stands in the field tdo is log 7. -/
def Obligations.CycleDrivesThePinsInOrder : Prop :=
  ∀ (s : State) (d m v : Bit), s.phase = .shift → s.i < s.bitCount.toNat → s.i / 8 < s.cfg.CAP →
    d = (s.tdiBuf.peek (s.i / 8)).getLsbD (s.i % 8) → m = (s.tmsBuf.peek (s.i / 8)).getLsbD (s.i % 8) →
    v = (s.target.apply m d).2 →
    ∃ t, exec .shiftCycle s = .next t ∧
      (∀ j, (t.tdoBuf.peek (j / 8)).getLsbD (j % 8) =
        if j = s.i then v else (s.tdoBuf.peek (j / 8)).getLsbD (j % 8)) ∧
      t = { s with
        pinTrace := s.pinTrace ++
          [.write .tck false, .write .tdi d, .write .tms m, .write .tck true, .read v]
        tck := true, tdi := d, tms := m, target := (s.target.apply m d).1, tdo := v
        tdoBuf := t.tdoBuf, i := s.i + 1 }

/-- R143: after the last cycle the byte_count bytes of tdo_buf go out, cut as R75 says, and the Engine is in HEADER;
nothing else changes. -/
def Obligations.ReturnSendsTheTdoVector : Prop :=
  ∀ (s : State) (bc : Nat), s.cfg.valid → s.phase = .shift → s.i = s.bitCount.toNat →
    bc = (s.bitCount.toNat + 7) / 8 → bc ≤ s.cfg.CAP →
    ∃ qs, exec .shiftReturn s = .next { s with txQ := s.txQ ++ qs, phase := .header } ∧
      IsChunking s.cfg.C ((List.range bc).map s.tdoBuf.peek) qs

/-- R144, R145, R146, R148: a pass with bit_count = n, once begun, runs its n cycles and its return as the next n + 1
steps, whatever waits in rx_q and whether or not XRESET is asserted; the pin trace is that of R142, the response has
byte_count bytes whose bit j is the sample of cycle j for j < n and 0 beyond, and the latches end as the last cycle
drove them. -/
def Obligations.PassReturnsWhatTheTargetAnswered : Prop :=
  ∀ (s : State) (n : Nat), s.cfg.valid → s.agenda = [] → s.phase = .shift → s.i = 0 → n = s.bitCount.toNat →
    n ≤ 8 * s.cfg.CAP → (∀ j, s.tdoBuf.getBit j = false) →
    ∃ t qs, core.run (n + 1) s = .next t ∧
      qs.flatten.length = (n + 7) / 8 ∧
      (∀ j, j < 8 * ((n + 7) / 8) →
        (qs.flatten.getD (j / 8) 0).getLsbD (j % 8) =
          if j < n then sampleAt s.target s.tmsBuf s.tdiBuf j else false) ∧
      (∀ q ∈ qs, 1 ≤ q.length ∧ q.length ≤ s.cfg.C) ∧
      (1 ≤ n → t.tck = true ∧ t.tdi = levelAt s.tdiBuf (n - 1) ∧ t.tms = levelAt s.tmsBuf (n - 1) ∧
        t.tdo = sampleAt s.target s.tmsBuf s.tdiBuf (n - 1)) ∧
      (n = 0 → t.tck = s.tck ∧ t.tdi = s.tdi ∧ t.tms = s.tms ∧ t.tdo = s.tdo) ∧
      t = { s with
        phase := .header, i := n, txQ := s.txQ ++ qs, tdoBuf := t.tdoBuf
        pinTrace := s.pinTrace ++ passTrace s.target s.tmsBuf s.tdiBuf n
        target := targetAt s.target s.tmsBuf s.tdiBuf n
        tck := t.tck, tdi := t.tdi, tms := t.tms, tdo := t.tdo }

/-- R74, R120 to R126, R141, R143, R148 together: the packets of one command, waiting while the Engine is in HEADER, are
consumed in order, drive bit j of the TMS and TDI vectors in cycle j, and give back byte_count bytes that hold the
Target's answers and zeros beyond; every packet is used and none is left. -/
def Obligations.OneCommandEndToEnd : Prop :=
  ∀ (s : State) (n : Word32) (tms tdi : List Byte) (rest : List Packet) (bc : Nat), s.cfg.valid → s.undisturbed →
    s.phase = .header → bc = (n.toNat + 7) / 8 → 1 ≤ n.toNat → n.toNat ≤ 8 * s.cfg.CAP →
    tms.length = bc → tdi.length = bc → s.rxQ = commandPackets s.cfg.C n tms tdi ++ rest →
    ∃ t qs, core.run ((commandPackets s.cfg.C n tms tdi).length + n.toNat + 1) s = .next t ∧
      t.phase = .header ∧ t.rxQ = rest ∧ t.txQ = s.txQ ++ qs ∧ t.bitCount = n ∧ t.err = s.err ∧
      (∀ a, t.tmsBuf.peek a = tms.getD a 0) ∧ (∀ a, t.tdiBuf.peek a = tdi.getD a 0) ∧
      qs.flatten.length = bc ∧
      (∀ j, j < 8 * bc →
        (qs.flatten.getD (j / 8) 0).getLsbD (j % 8) =
          if j < n.toNat then sampleAt s.target t.tmsBuf t.tdiBuf j else false) ∧
      t.pinTrace = s.pinTrace ++ passTrace s.target t.tmsBuf t.tdiBuf n.toNat

/-- R142, R146, R29: but for a power-on (seen in the model's counter powerOns, log 6), a step moves no pin, performs no
pin event and leaves the Target and the level it drives (log 7) as they are, unless it is the cycle i of a pass, and then
it performs exactly the five events of that cycle, in order. -/
def Obligations.PinsMoveOnlyInCycles : Prop :=
  ∀ (s t : State), step s = .next t → t.powerOns = s.powerOns →
    (t.pinTrace = s.pinTrace ∧ t.tck = s.tck ∧ t.tms = s.tms ∧ t.tdi = s.tdi ∧ t.target = s.target ∧
      t.tdo = s.tdo) ∨
    (s.phase = .shift ∧ s.i < s.bitCount.toNat ∧ t.i = s.i + 1 ∧
      t.pinTrace = s.pinTrace ++ cycleEvents (levelAt s.tdiBuf s.i) (levelAt s.tmsBuf s.i)
        (s.target.apply (levelAt s.tmsBuf s.i) (levelAt s.tdiBuf s.i)).2)

/-- R56, R147: the Target is clocked by a rising edge of TCK, a write of 1 that follows a write of 0, and by nothing
else: it latches the levels then on TMS and TDI and drives its answer; any other pin write, and every sample of TDO,
leaves it and the level it drives as they are; a sample changes the pin trace alone. The field that holds that level, and
that a write of 1 to a TCK already high is no edge, are log 7. -/
def Obligations.TargetIsClockedByRisingEdges : Prop :=
  (∀ (s : State), s.tck = false →
    (s.pinWrite .tck true).target = (s.target.apply s.tms s.tdi).1 ∧
    (s.pinWrite .tck true).tdo = (s.target.apply s.tms s.tdi).2) ∧
  (∀ (s : State) (p : Pin) (b : Bit), ¬ (p = .tck ∧ b = true ∧ s.tck = false) →
    (s.pinWrite p b).target = s.target ∧ (s.pinWrite p b).tdo = s.tdo) ∧
  (∀ (s : State), s.pinRead = { s with pinTrace := s.pinTrace ++ [.read s.tdo] })

/-! ### Resets and asynchronous events (70_reset_and_hazards.md, 60_exceptions.md) -/

/-- R201: outside SHIFT the transport reset puts the Engine in HEADER with its counters 0 and empties both queues; it
changes nothing else but the Host's own note that it is still to be taken, xresetHeld, a field of the model (log 10).
That the counters become 0 also in HEADER with empty queues, where R201 ends with 'changes nothing', is log 32; that a
command of the Host stays in flight is log 33. -/
def Obligations.XresetResynchronises : Prop :=
  ∀ (s : State), s.phase ≠ .shift →
    exec .xreset s =
      .next { s with phase := .header, offset := 0, i := 0, rxQ := [], txQ := [], xresetHeld := false }

/-- R201, R144: an XRESET asserted in SHIFT is held; the pass goes on step by step as without it, and after the return
it is taken, discarding also the response just emitted. That the Host holds it is the model's reading (log 10), that the
counters become 0 is R201's pseudocode (log 32), that a command of the Host stays in flight log 33. -/
def Obligations.XresetIsHeldThroughThePass : Prop :=
  ∀ (s : State), s.phase = .shift →
    exec .xreset s = .next { s with xresetHeld := true } ∧
    (s.agenda = [] → s.i < s.bitCount.toNat →
      step { s with xresetHeld := true } = exec .shiftCycle { s with xresetHeld := true }) ∧
    (s.agenda = [] → s.i = s.bitCount.toNat → (s.bitCount.toNat + 7) / 8 ≤ s.cfg.CAP →
      ∃ t, step { s with xresetHeld := true } = .next t ∧
        step t = .next { s with phase := .header, offset := 0, i := 0, rxQ := [], txQ := [], xresetHeld := false })

/-- R180: an XRESET waiting between operations is taken before a waiting packet, which it discards. That the Host holds it
is log 10, that the counters become 0 whatever the state and the queues log 32, that a command of the Host stays in
flight log 33. -/
def Obligations.XresetComesBeforeWaitingPackets : Prop :=
  ∀ (s : State), s.agenda = [] → s.xresetHeld = true → s.phase ≠ .shift →
    step s = .next { s with phase := .header, offset := 0, i := 0, rxQ := [], txQ := [], xresetHeld := false }

/-- R200, R34: power-on reset, at any time and in any state, sets the Engine's scalars, clears the flags and empties both
queues; the buffers and pin latches take contents the statement leaves open (free values, logs 4 and 5); the Target,
the Host and the pin events already performed are untouched (log 28). -/
def Obligations.PowerOnResetsTheEngine : Prop :=
  ∀ (s : State) (rest : List Turn),
    (∃ t, exec .por s = .next t ∧
      t = { s with
        phase := .header, bitCount := 0, offset := 0, i := 0, err := ⟨false, false, false⟩, rxQ := [], txQ := []
        tmsBuf := t.tmsBuf, tdiBuf := t.tdiBuf, tdoBuf := t.tdoBuf
        tck := t.tck, tms := t.tms, tdi := t.tdi, powerOns := s.powerOns + 1 }) ∧
    (s.agenda = .por :: rest → step s = exec .por { s with agenda := rest })

/-- R200, R179, R60: a power-on may also fall inside a JTAG cycle, after any number k of its five pin events: these and
no more join the pin trace, the Target has seen exactly them, and the Engine is as after any power-on. That the cut is an
entry of the schedule is log 30; that POR leaves Target and Host is log 28; the open contents are logs 4 and 5. -/
def Obligations.PowerOnCutsACycleShort : Prop :=
  ∀ (s : State) (k : Nat) (rest : List Turn) (d m : Bit), s.agenda = .porDuring k :: rest →
    d = levelAt s.tdiBuf s.i → m = levelAt s.tmsBuf s.i →
    (s.phase = .shift → s.i < s.bitCount.toNat →
      ∃ t, step s = .next t ∧
        t = { s with
          agenda := rest
          pinTrace := s.pinTrace ++ (cycleEvents d m (s.target.apply m d).2).take k
          target := (clockedAfter s m d k).1, tdo := (clockedAfter s m d k).2
          phase := .header, bitCount := 0, offset := 0, i := 0, err := ⟨false, false, false⟩, rxQ := [], txQ := []
          tmsBuf := t.tmsBuf, tdiBuf := t.tdiBuf, tdoBuf := t.tdoBuf
          tck := t.tck, tms := t.tms, tdi := t.tdi, powerOns := s.powerOns + 1 }) ∧
    (¬ (s.phase = .shift ∧ s.i < s.bitCount.toNat) → step s = exec .por { s with agenda := rest })

/-- R34: the values after reset that the spec states. -/
def Obligations.ResetLeavesTheStatedValues : Prop :=
  State.reset.phase = .header ∧ State.reset.bitCount = 0 ∧ State.reset.offset = 0 ∧ State.reset.i = 0 ∧
  State.reset.err = ⟨false, false, false⟩ ∧ State.reset.rxQ = [] ∧ State.reset.txQ = []

/-- R28: no step but a power-on (log 6) clears an error flag. -/
def Obligations.ErrorFlagsAreSticky : Prop :=
  ∀ (s t : State), step s = .next t → t.powerOns = s.powerOns →
    (s.err.capacity = true → t.err.capacity = true) ∧
    (s.err.shortPacket = true → t.err.shortPacket = true) ∧
    (s.err.shortHeader = true → t.err.shortHeader = true)

/-- R22: bit_count changes only where a power-on (log 6) clears it or a header is accepted in HEADER. -/
def Obligations.BitCountIsWrittenOnlyByHeaders : Prop :=
  ∀ (s t : State), step s = .next t → t.powerOns = s.powerOns → t.bitCount ≠ s.bitCount →
    s.phase = .header ∧ (t.phase = .receiveTms ∨ t.phase = .shift) ∧ t.err = s.err ∧
    ∃ b0 b1 b2 b3 rest, s.rxQ = (b0 :: b1 :: b2 :: b3 :: rest) :: t.rxQ ∧
      t.bitCount.toNat = leValue b0 b1 b2 b3 ∧ leValue b0 b1 b2 b3 ≤ 8 * s.cfg.CAP

/-! ### The pure functions (43_vector_buffer.md, 30_encoding.md) -/

/-- R161: byte_count_of(n) is the least B with 8 * B >= n, for every 32-bit n, with no wrap; the
caller finds it in the model's own field result (log 13). -/
def Obligations.ByteCountIsTheLeastCover : Prop :=
  ∀ (s : State) (n : Word32), ∃ B, exec (.byteCount n) s = .next { s with result := .count B } ∧
    n.toNat ≤ 8 * B ∧ ∀ B', n.toNat ≤ 8 * B' → B ≤ B'

/-- R162: get_bit reads bit i % 8 of byte i / 8 and changes nothing but the caller's result (log 13); beyond the
sequence, where the spec gives no value, it stops by name (the model's choice, log 19). -/
def Obligations.GetBitReadsOneBit : Prop :=
  ∀ (s : State) (buf : List Byte) (i : Nat),
    (i / 8 < buf.length →
      exec (.getBit buf i) s = .next { s with result := .bit ((buf.getD (i / 8) 0).getLsbD (i % 8)) }) ∧
    (buf.length ≤ i / 8 → exec (.getBit buf i) s = .fault (.bitIndex i))

/-- R163: set_bit sets or clears bit i and leaves every other bit and the length as they were; beyond the array it
stops by name (the model's choice, log 19); the array is the caller's (log 13). -/
def Obligations.SetBitChangesOneBit : Prop :=
  ∀ (s : State) (buf : List Byte) (i : Nat) (v : Bit),
    (i / 8 < buf.length → ∃ buf', exec (.setBit buf i v) s = .next { s with result := .bytes buf' } ∧
      buf'.length = buf.length ∧
      ∀ j, j < 8 * buf.length →
        (buf'.getD (j / 8) 0).getLsbD (j % 8) = if j = i then v else (buf.getD (j / 8) 0).getLsbD (j % 8)) ∧
    (buf.length ≤ i / 8 → exec (.setBit buf i v) s = .fault (.bitIndex i))

/-- R75: chunk_C cuts a vector of any length in order into ceil(n / C) packets, all but the last full; the
caller finds them in the model's own field result (log 13). -/
def Obligations.ChunkCutsTheVector : Prop :=
  ∀ (s : State) (v : List Byte), s.cfg.valid →
    ∃ ps, exec (.chunk v) s = .next { s with result := .packets ps } ∧ IsChunking s.cfg.C v ps

/-- R76: reassemble joins packets in arrival order, and undoes chunk_C for every vector (results
in the model's own field result, log 13). -/
def Obligations.ReassembleUndoesChunk : Prop :=
  (∀ (s : State) (ps : List Packet),
    exec (.reassemble ps) s = .next { s with result := .bytes ps.flatten }) ∧
  ∀ (s t : State) (v : List Byte), s.cfg.valid →
    ∃ ps, exec (.chunk v) s = .next { s with result := .packets ps } ∧
      exec (.reassemble ps) t = .next { t with result := .bytes v }

/-- R84: SHIFTCMD expands to the header packet le32(n), then chunk_C(tms), then chunk_C(tdi), scheduled next as PKT
lines (the schedule is the model's, logs 2 and 26); and these are exactly the packets the Host sends for the same
shift: command, when it is given that many moves (log 15). -/
def Obligations.ShiftcmdExpandsToTheHostsPackets : Prop :=
  ∀ (s h : State) (n : Word32) (tms tdi : List Byte), s.cfg.valid →
    tms.length = (n.toNat + 7) / 8 → tdi.length = (n.toNat + 7) / 8 →
    ∃ b0 b1 b2 b3 tq dq,
      exec (.shiftcmd n tms tdi) s =
        .next { s with agenda := ([b0, b1, b2, b3] :: (tq ++ dq)).map Turn.send ++ s.agenda } ∧
      leValue b0 b1 b2 b3 = n.toNat ∧ IsChunking s.cfg.C tms tq ∧ IsChunking s.cfg.C tdi dq ∧
      (h.hostReady = true → h.cfg = s.cfg → n.toNat ≤ 8 * s.cfg.CAP →
        ∃ t u, exec (.hostShift n tms tdi) h = .next t ∧
          core.run (1 + tq.length + dq.length)
            { t with agenda := List.replicate (1 + tq.length + dq.length) .host ++ t.agenda } = .next u ∧
          u.agenda = h.agenda ∧ u.rxQ = h.rxQ ++ [b0, b1, b2, b3] :: (tq ++ dq))

/-! ### The Host (40_host_command_framer.md) -/

/-- R101, R79: getinfo: writes the capability text, MAXPAYLOAD in decimal and a line feed, and changes nothing else; for
the reference value these are the 20 bytes of R79. -/
def Obligations.GetinfoWritesTheCapabilityString : Prop :=
  ∀ (s : State), s.hostReady = true →
    (∃ digits : List Byte,
      exec .hostGetinfo s = .next { s with
        tcpOut := s.tcpOut ++ ([0x78, 0x76, 0x63, 0x53, 0x65, 0x72, 0x76, 0x65, 0x72, 0x5F, 0x76, 0x31, 0x2E, 0x30, 0x3A]
          ++ digits ++ [0x0A]) } ∧
      digits ≠ [] ∧ (∀ b ∈ digits, 48 ≤ b.toNat ∧ b.toNat ≤ 57) ∧
      digits.foldl (fun acc b => 10 * acc + (b.toNat - 48)) 0 = s.cfg.maxPayload ∧
      (2 ≤ digits.length → digits.head? ≠ some 48)) ∧
    (s.cfg.maxPayload = 2048 →
      exec .hostGetinfo s = .next { s with
        tcpOut := s.tcpOut ++ [0x78, 0x76, 0x63, 0x53, 0x65, 0x72, 0x76, 0x65, 0x72, 0x5F, 0x76, 0x31, 0x2E, 0x30, 0x3A,
          0x32, 0x30, 0x34, 0x38, 0x0A] })

/-- R102: settck: with any 4 bytes is answered with the same 4 bytes, and nothing else changes. -/
def Obligations.SettckEchoesItsFourBytes : Prop :=
  ∀ (s : State) (b0 b1 b2 b3 : Byte) (rest : List Byte), s.hostReady = true →
    ∃ n, decode s.cfg s.control (.tcp ([0x73, 0x65, 0x74, 0x74, 0x63, 0x6B, 0x3A, b0, b1, b2, b3] ++ rest)) =
        .ok (.hostSettck n, rest) ∧
      exec (.hostSettck n) s = .next { s with tcpOut := s.tcpOut ++ [b0, b1, b2, b3] }

/-- R103, R106: a shift: within capacity and not empty is in flight with its header packet, then the TMS packets, then
the TDI packets to be sent; given that many moves, whatever else is scheduled after them, the Host sends exactly these in
this order, and has nothing collected; nothing else changes. That the whole payload has arrived by then is log 15, that
the Host waits while its XRESET is not taken log 10. -/
def Obligations.ShiftSendsHeaderThenTmsThenTdi : Prop :=
  ∀ (s : State) (n : Word32) (tms tdi : List Byte), s.cfg.valid → s.hostReady = true →
    tms.length = (n.toNat + 7) / 8 → tdi.length = (n.toNat + 7) / 8 → 1 ≤ n.toNat → n.toNat ≤ 8 * s.cfg.CAP →
    ∃ b0 b1 b2 b3 tq dq ps, ps = [b0, b1, b2, b3] :: (tq ++ dq) ∧
      leValue b0 b1 b2 b3 = n.toNat ∧ IsChunking s.cfg.C tms tq ∧ IsChunking s.cfg.C tdi dq ∧
      exec (.hostShift n tms tdi) s = .next { s with flight := some ⟨n, tms, tdi, ps, []⟩ } ∧
      core.run ps.length { s with
        flight := some ⟨n, tms, tdi, ps, []⟩, agenda := List.replicate ps.length .host ++ s.agenda } =
        .next { s with rxQ := s.rxQ ++ ps, flight := some ⟨n, tms, tdi, [], []⟩ }

/-- R103, bit_count = 0: only the header packet is to be sent; with its sending, the next move of the Host (log 15), the
empty reply is given and the command is over. That it does not wait for the Engine, so that R61's empty rx_q during SHIFT
need not hold of the next command's header, is log 31. -/
def Obligations.EmptyShiftIsAnsweredAtOnce : Prop :=
  ∀ (s : State), s.cfg.valid → s.hostReady = true →
    exec (.hostShift 0 [] []) s = .next { s with flight := some ⟨0, [], [], [[0, 0, 0, 0]], []⟩ } ∧
    step { s with flight := some ⟨0, [], [], [[0, 0, 0, 0]], []⟩, agenda := .host :: s.agenda } =
      .next { s with rxQ := s.rxQ ++ [[0, 0, 0, 0]] }

/-- R59, R103, R106: a Host with a packet to send sends the next one when it is scheduled, whatever the Engine is doing;
the packet goes to the end of rx_q and nothing else changes. That a packet is a move of its own is log 15. -/
def Obligations.HostSendsOnePacketAMove : Prop :=
  ∀ (s : State) (f : Flight) (p : Packet) (ps : List Packet) (rest : List Turn), s.session = .opened →
    s.flight = some f → f.unsent = p :: ps → ps ≠ [] → s.agenda = .host :: rest →
    step s = .next { s with agenda := rest, rxQ := s.rxQ ++ [p], flight := some { f with unsent := ps } }

/-- R108, R177: an over-capacity shift: sends nothing; under teardown the session ends (with XRESET asserted, R174, and
its noted error), under drain_and_continue 2 * byte_count bytes are to be discarded, with no reply. That such a command
carries no vectors is log 24, that XRESET is asserted at once log 11. -/
def Obligations.OverCapacityShiftIsRejectedByTheHost : Prop :=
  ∀ (s : State) (n : Word32) (tms tdi : List Byte), s.hostReady = true → 8 * s.cfg.CAP < n.toNat →
    (s.cfg.hostCapPolicy = .teardown →
      exec (.hostShift n tms tdi) s = .next { s with
        session := .tornDown, tcpIn := [], flight := none, drain := 0, xresetHeld := true
        hostLog := s.hostLog ++ [.capacity] }) ∧
    (s.cfg.hostCapPolicy = .drainAndContinue →
      exec (.hostShift n tms tdi) s = .next { s with
        drain := 2 * ((n.toNat + 7) / 8), hostLog := s.hostLog ++ [.capacity] })

/-- R104, R175: an unknown command consumes some of what was seen (how much is left open, UNKNOWN_CONSUME, log 8), is noted,
and does nothing else: the session goes on, nothing is sent and nothing is written. -/
def Obligations.UnknownCommandHasNoSideEffect : Prop :=
  ∀ (s : State) (seen : List Byte), s.hostReady = true →
    ∃ k, exec (.hostUnknown seen) s = .next { s with
      tcpIn := seen.drop k ++ s.tcpIn, hostLog := s.hostLog ++ [.protocolMalformed] }

/-- R103, R107: with the Engine idle and every packet of the command in flight sent, the Host gathers its response
whatever the division into packets, and writes exactly those bytes to the client. That the Host moves when the Engine
cannot is log 2. -/
def Obligations.ResponseIsRelayedWhateverItsPackets : Prop :=
  ∀ (s : State) (f : Flight), s.undisturbed → s.phase = .header → s.rxQ = [] → s.session = .opened →
    s.flight = some f → f.unsent = [] → f.tdo = [] → (∀ q ∈ s.txQ, q ≠ []) → 1 ≤ f.bitCount.toNat →
    s.txQ.flatten.length = (f.bitCount.toNat + 7) / 8 →
    core.run s.txQ.length s = .next { s with txQ := [], flight := none, tcpOut := s.tcpOut ++ s.txQ.flatten }

/-- R111, R174: when the client closes, or a read or write fails, the session is torn down, its buffers are released and
XRESET is asserted. That unread bytes go with it and that XRESET is asserted at once are the model's (logs 11, 27). -/
def Obligations.LostConnectionTearsTheSessionDown : Prop :=
  ∀ (s : State) (rest : List Turn), s.session = .opened →
    (s.agenda = .tcpClosed :: rest ∨ s.agenda = .ioFailure :: rest) →
    step s = .next { s with
      agenda := rest, session := .tornDown, tcpIn := [], flight := none, drain := 0, xresetHeld := true
      hostLog := s.hostLog ++ [.connectionFatal] }

/-- R103, R110, R176: a transport operation of the Host, the sending of any packet of a command or the wait for its
response, may exceed its deadline whenever one is waiting: the session is torn down, with nothing retried and nothing
more sent. That the deadline is an entry of the schedule is log 12, that XRESET is asserted at once log 11. -/
def Obligations.AnyTransportOperationMayTimeOut : Prop :=
  ∀ (s : State) (f : Flight) (rest : List Turn), s.session = .opened → s.flight = some f →
    s.agenda = .timeout :: rest →
    step s = .next { s with
      agenda := rest, session := .tornDown, tcpIn := [], flight := none, drain := 0, xresetHeld := true
      hostLog := s.hostLog ++ [.transportTimeout] }

/-- R176, R174, R111: when the Engine has dropped a command and waits, with no response to read, the Host's operation ends
by timeout, the session is torn down and XRESET is asserted. That the model lets it end when nothing else can move is
log 12, that XRESET is asserted in that same step log 11. -/
def Obligations.AbortedCommandEndsByTimeout : Prop :=
  ∀ (s : State) (f : Flight), s.undisturbed → s.phase ≠ .shift → s.rxQ = [] → s.txQ = [] → s.session = .opened →
    s.flight = some f → f.unsent = [] →
    step s = .next { s with
      session := .tornDown, tcpIn := [], flight := none, drain := 0, xresetHeld := true
      hostLog := s.hostLog ++ [.transportTimeout] }

/-! ### The machine as a whole -/

/-- R70, R120, R140: with nothing scheduled, a step is the exec of the one operation the Engine's state selects, on the
state from which its packet has been taken; otherwise of the command the Host has read, on the state from which its
bytes have been taken; a scheduled reset or call runs on the state with its entry taken, a power-on inside a cycle on the
state after the pin events before it (log 30). The schedule, and that the Engine goes before the Host, are the model's
(log 2); an XRESET not yet taken stops the Host (log 10). -/
def Obligations.StepRunsTheSelectedOperation : Prop :=
  (∀ (s : State) (p : Packet) (ps : List Packet), s.undisturbed → s.rxQ = p :: ps → p.length ≤ s.cfg.C →
    (s.phase = .header → step s = exec (.pktHeader p) { s with rxQ := ps }) ∧
    (s.phase = .receiveTms → step s = exec (.pktTms p) { s with rxQ := ps }) ∧
    (s.phase = .receiveTdi → step s = exec (.pktTdi p) { s with rxQ := ps })) ∧
  (∀ (s : State), s.agenda = [] → s.phase = .shift →
    (s.i < s.bitCount.toNat → step s = exec .shiftCycle s) ∧
    (s.i = s.bitCount.toNat → step s = exec .shiftReturn s)) ∧
  (∀ (s : State) (i : Instr) (rest : List Byte), s.undisturbed → s.phase ≠ .shift → s.rxQ = [] →
    s.hostReady = true → decode s.cfg s.control (.tcp s.tcpIn) = .ok (i, rest) → i.wf s.cfg = true →
    step s = exec i { s with tcpIn := rest }) ∧
  (∀ (s : State) (c : Call) (rest : List Turn), s.agenda = .call c :: rest → (decodeCall c).wf s.cfg = true →
    step s = exec (decodeCall c) { s with agenda := rest }) ∧
  (∀ (s : State) (rest : List Turn), s.agenda = .xreset :: rest → step s = exec .xreset { s with agenda := rest }) ∧
  (∀ (s : State) (rest : List Turn), s.agenda = .por :: rest → step s = exec .por { s with agenda := rest }) ∧
  (∀ (s : State) (k : Nat) (rest : List Turn), s.agenda = .porDuring k :: rest →
    step s = exec .por (State.cutCycle { s with agenda := rest } k))

/-- Decoding an encoded well-formed operation gives it back, with nothing left over, for every row of the opcode table
and every operand. An over-capacity shift: carries no vectors (log 24). -/
def Obligations.DecodeUndoesEncode : Prop :=
  ∀ (cfg : Config) (i : Instr), i.wf cfg = true → decode cfg (encode i).1 (encode i).2 = .ok (i, [])

/-- A few encodings written out from the spec decode to what they stand for (R71, R78; V10-4, V10-5, V10-7). -/
def Obligations.SpelledOutEncodingsDecode : Prop :=
  decode Config.reference ⟨.header, 0, 0⟩ (.packetIn [0x10, 0, 0, 0]) = .ok (.pktHeader [0x10, 0, 0, 0], []) ∧
  decode Config.reference ⟨.receiveTdi, 16, 0⟩ (.packetIn [0xFF, 0x00]) = .ok (.pktTdi [0xFF, 0x00], []) ∧
  decode Config.reference ⟨.header, 0, 0⟩ (.tcp [0x67, 0x65, 0x74, 0x69, 0x6E, 0x66, 0x6F, 0x3A]) =
    .ok (.hostGetinfo, []) ∧
  decode Config.reference ⟨.header, 0, 0⟩
    (.tcp [0x73, 0x68, 0x69, 0x66, 0x74, 0x3A, 0x10, 0, 0, 0, 0x00, 0x00, 0xFF, 0x00]) =
    .ok (.hostShift 16 [0x00, 0x00] [0xFF, 0x00], []) ∧
  decode Config.reference ⟨.header, 0, 0⟩ (.tcp [0x53, 0x68, 0x69, 0x66, 0x74, 0x3A]) =
    .ok (.hostUnknown [0x53, 0x68, 0x69, 0x66, 0x74, 0x3A], [])

/-- R33: from every state that meets the invariants of reachable states, every step leads to one that meets them. -/
def Obligations.StepsKeepTheReachableInvariants : Prop :=
  ∀ (s t : State), s.Inv → step s = .next t → t.Inv

/-- The state after reset meets the invariants. -/
def Obligations.ResetMeetsTheInvariants : Prop := State.reset.Inv

/-- Every step keeps every buffer in canonical form, from every state, reachable or not. -/
def Obligations.BuffersStayCanonical : Prop :=
  ∀ (s t : State), (∀ b, (s.buf b).wf s.cfg.CAP = true) → step s = .next t → ∀ b, (t.buf b).wf t.cfg.CAP = true

/-- R35: no step changes the build's parameters. -/
def Obligations.ParametersNeverChange : Prop :=
  ∀ (s t : State), step s = .next t → t.cfg = s.cfg

/-- R33 item 6, R57, R213: from a state that meets the invariants no step ends on an index that does not exist or on
an operation without its trigger; the only stops are the end of a run and an Engine waiting in a receive state, each
with nothing scheduled and nothing to deliver (the names of the two stops are the model's, log 9). -/
def Obligations.OnlyWaitingStopsTheMachine : Prop :=
  ∀ (s : State) (f : Fault), s.Inv → step s = .fault f →
    s.agenda = [] ∧ s.rxQ = [] ∧ s.xresetHeld = false ∧
    ((f = .runOver ∧ s.phase = .header) ∨ (f = .stuckReceiving ∧ s.receiving))

/-- R213: the step stops with runOver only at the end of a run: HEADER, rx_q empty, nothing scheduled, and the Host has no
packet left to send, of a command in flight or of a command in its stream (the stop's name, and that the schedule is at
its end, are log 9). -/
def Obligations.RunOverIsTheEndOfARun : Prop :=
  ∀ (s : State), step s = .fault .runOver → s.runOver = true

/-- R213: a run is not over while a packet is left to send: not with an unsent packet of a command in flight, nor with a
whole shift: within capacity in the stream, also while an XRESET is held; and a response still to be read keeps no run
from being over, only its end from being good. That a good end also asks that no command be in flight, and that the
schedule be at its end, is the model's reading (log 9). -/
def Obligations.RunIsOverWithoutPacketsLeft : Prop :=
  (∀ (s : State) (f : Flight), s.session = .opened → s.flight = some f → f.unsent ≠ [] → s.runOver = false) ∧
  (∀ (s : State) (n : Word32) (tms tdi rest : List Byte), s.session = .opened → s.drain = 0 →
    decode s.cfg s.control (.tcp s.tcpIn) = .ok (.hostShift n tms tdi, rest) → n.toNat ≤ 8 * s.cfg.CAP →
    s.runOver = false) ∧
  (∀ (s : State), s.phase = .header → s.rxQ = [] → s.agenda = [] → s.tcpIn = [] →
    (∀ f, s.flight = some f → f.unsent = []) →
    s.runOver = true ∧ (s.goodEnd = true ↔ s.err = ⟨false, false, false⟩ ∧ s.txQ = [] ∧ s.flight = none))
end

