-- ==== Sys2Proof/Laws/Memory.lean ====
section
/-! SUPPORT. What the buffer operations do: a read after a write, and the canonical form every one of them keeps. -/

namespace Sys2Proof.Machine

@[simp] theorem cellAt_nil (a : Nat) : cellAt [] a = none := rfl

theorem cellAt_put (cs : List Host.Cell) (a a' : Nat) (v : Byte) :
    cellAt (cellPut cs a v) a' = if a = a' then some v else cellAt cs a' := by
  induction cs with
  | nil => simp [cellPut, cellAt]
  | cons c cs ih =>
    simp only [cellPut]
    split
    · simp [cellAt]
    · split
      · rename_i h1 h2
        subst h2
        by_cases h : c.1 = a' <;> simp [cellAt, h]
      · rename_i h1 h2
        simp only [cellAt, ih]
        by_cases h : c.1 = a'
        · have : ¬ a = a' := by omega
          simp [h, this]
        · simp [h]

theorem cellAt_del (cs : List Host.Cell) (a a' : Nat) :
    cellAt (cellDel cs a) a' = if a = a' then none else cellAt cs a' := by
  induction cs with
  | nil => simp [cellDel]
  | cons c cs ih =>
    simp only [cellDel]
    split
    · rename_i h
      rw [ih]
      by_cases h' : a = a'
      · simp [h']
      · have : ¬ c.1 = a' := by omega
        simp [h', cellAt, this]
    · rename_i h
      simp only [cellAt, ih]
      by_cases h' : c.1 = a'
      · have : ¬ a = a' := by omega
        simp [h', this]
      · simp [h']

/-- A read after a write: the value written at its index, the old byte at every other. -/
theorem Memory.peek_poke (m : Memory) (a a' : Nat) (v : Byte) :
    (m.poke a v).peek a' = if a = a' then v else m.peek a' := by
  unfold Memory.peek Memory.poke
  split
  · rename_i h
    simp only [cellAt_del]
    by_cases h' : a = a'
    · subst h'; simp [h]
    · simp [h']
  · simp only [cellAt_put]
    by_cases h' : a = a' <;> simp [h']

@[simp] theorem Memory.poke_fill (m : Memory) (a : Nat) (v : Byte) : (m.poke a v).fill = m.fill := rfl

@[simp] theorem Memory.zeroed_peek (a : Nat) : Memory.zeroed.peek a = 0 := rfl

@[simp] theorem Memory.zeroed_fill : Memory.zeroed.fill = .zero := rfl

@[simp] theorem Memory.pokeBytes_fill (m : Memory) (a : Nat) (bs : List Byte) :
    (m.pokeBytes a bs).fill = m.fill := by
  induction bs generalizing m a with
  | nil => rfl
  | cons b bs ih => simp [Memory.pokeBytes, ih]

/-- Bytes stored from `a` on: each lands at its own index, every other index keeps its byte. -/
theorem Memory.peek_pokeBytes (m : Memory) (a a' : Nat) (bs : List Byte) :
    (m.pokeBytes a bs).peek a' = if a ≤ a' ∧ a' < a + bs.length then bs.getD (a' - a) 0 else m.peek a' := by
  induction bs generalizing m a with
  | nil => simp [Memory.pokeBytes]
  | cons b bs ih =>
    simp only [Memory.pokeBytes, ih, Memory.peek_poke, List.length_cons]
    by_cases h : a = a'
    · subst h
      have : ¬ (a + 1 ≤ a) := by omega
      simp [this]
    · by_cases h1 : a + 1 ≤ a' ∧ a' < a + 1 + bs.length
      · have h2 : a ≤ a' ∧ a' < a + (bs.length + 1) := by omega
        have h3 : a' - a = (a' - (a + 1)) + 1 := by omega
        rw [if_pos h1, if_pos h2, h3, List.getD_cons_succ]
      · have h2 : ¬ (a ≤ a' ∧ a' < a + (bs.length + 1)) := by omega
        rw [if_neg h1, if_neg h2, if_neg h]

@[simp] theorem Memory.peekBytes_length (m : Memory) (n : Nat) : (m.peekBytes n).length = n := by
  simp [Memory.peekBytes]

@[simp] theorem Memory.setBit_fill (m : Memory) (i : Nat) (v : Bit) : (m.setBit i v).fill = m.fill := rfl

/-! ### The canonical form -/

theorem cellsRising_mono {lo lo' : Nat} {cs : List Host.Cell} (h : lo' ≤ lo)
    (hr : cellsRisingFrom lo cs = true) : cellsRisingFrom lo' cs = true := by
  cases cs with
  | nil => rfl
  | cons c cs =>
    simp only [cellsRisingFrom, Bool.and_eq_true, decide_eq_true_eq] at hr ⊢
    exact ⟨by omega, hr.2⟩

theorem cellsRising_put {lo a : Nat} {v : Byte} {cs : List Host.Cell} (ha : lo ≤ a)
    (hr : cellsRisingFrom lo cs = true) : cellsRisingFrom lo (cellPut cs a v) = true := by
  induction cs generalizing lo with
  | nil => simp [cellPut, cellsRisingFrom, ha]
  | cons c cs ih =>
    simp only [cellsRisingFrom, Bool.and_eq_true, decide_eq_true_eq] at hr
    simp only [cellPut]
    split
    · simp only [cellsRisingFrom, Bool.and_eq_true, decide_eq_true_eq]
      exact ⟨ha, by omega, hr.2⟩
    · split
      · rename_i h1 h2
        subst h2
        simp only [cellsRisingFrom, Bool.and_eq_true, decide_eq_true_eq]
        exact ⟨ha, hr.2⟩
      · simp only [cellsRisingFrom, Bool.and_eq_true, decide_eq_true_eq]
        exact ⟨hr.1, ih (by omega) hr.2⟩

theorem cellsRising_del {lo a : Nat} {cs : List Host.Cell}
    (hr : cellsRisingFrom lo cs = true) : cellsRisingFrom lo (cellDel cs a) = true := by
  induction cs generalizing lo with
  | nil => rfl
  | cons c cs ih =>
    simp only [cellsRisingFrom, Bool.and_eq_true, decide_eq_true_eq] at hr
    simp only [cellDel]
    split
    · exact cellsRising_mono (by omega) (ih hr.2)
    · simp only [cellsRisingFrom, Bool.and_eq_true, decide_eq_true_eq]
      exact ⟨hr.1, ih hr.2⟩

theorem mem_cellPut {cs : List Host.Cell} {a : Nat} {v : Byte} {c : Host.Cell}
    (h : c ∈ cellPut cs a v) : c = (a, v) ∨ c ∈ cs := by
  induction cs with
  | nil => simpa [cellPut] using h
  | cons d cs ih =>
    simp only [cellPut] at h
    split at h
    · simpa using h
    · split at h
      · simp only [List.mem_cons] at h ⊢; tauto
      · simp only [List.mem_cons] at h ⊢
        rcases h with h | h
        · exact .inr (.inl h)
        · rcases ih h with h | h <;> simp [h]

theorem mem_cellDel {cs : List Host.Cell} {a : Nat} {c : Host.Cell} (h : c ∈ cellDel cs a) : c ∈ cs := by
  induction cs with
  | nil => simp [cellDel] at h
  | cons d cs ih =>
    simp only [cellDel] at h
    split at h
    · exact List.mem_cons_of_mem _ (ih h)
    · simp only [List.mem_cons] at h ⊢
      exact h.imp id ih

/-- What the canonical form says, cell by cell. -/
theorem Memory.wf_iff (cap : Nat) (m : Memory) :
    m.wf cap = true ↔
      cellsRisingFrom 0 m.cells = true ∧ ∀ c ∈ m.cells, c.1 < cap ∧ c.2 ≠ m.fill.byteAt c.1 := by
  simp [Memory.wf, List.all_eq_true]

@[simp] theorem Memory.zeroed_wf (cap : Nat) : Memory.zeroed.wf cap = true := rfl

@[simp] theorem Memory.poweredOn_wf (cap n : Nat) (b : BufId) : (Memory.poweredOn n b).wf cap = true := rfl

/-- A write inside the buffer keeps the canonical form. -/
theorem Memory.wf_poke {cap : Nat} {m : Memory} {a : Nat} {v : Byte} (ha : a < cap)
    (h : m.wf cap = true) : (m.poke a v).wf cap = true := by
  rw [Memory.wf_iff] at h ⊢
  unfold Memory.poke
  split
  · exact ⟨cellsRising_del h.1, fun c hc => h.2 c (mem_cellDel hc)⟩
  · rename_i hv
    refine ⟨cellsRising_put (Nat.zero_le a) h.1, fun c hc => ?_⟩
    rcases mem_cellPut hc with rfl | hc
    · exact ⟨ha, hv⟩
    · exact h.2 c hc

/-- Stores inside the buffer keep the canonical form. -/
theorem Memory.wf_pokeBytes {cap : Nat} {m : Memory} {a : Nat} {bs : List Byte} (ha : a + bs.length ≤ cap)
    (h : m.wf cap = true) : (m.pokeBytes a bs).wf cap = true := by
  induction bs generalizing m a with
  | nil => exact h
  | cons b bs ih =>
    simp only [List.length_cons] at ha
    exact ih (by omega) (Memory.wf_poke (by omega) h)

/-- A bit set inside the buffer keeps the canonical form. -/
theorem Memory.wf_setBit {cap : Nat} {m : Memory} {i : Nat} {v : Bit} (hi : i / 8 < cap)
    (h : m.wf cap = true) : (m.setBit i v).wf cap = true := Memory.wf_poke hi h

end Sys2Proof.Machine
end

