-- ==== Sys2Proof/Laws/Operands.lean ====
section
/-! SUPPORT. What the pure functions do: little-endian integers, byte_count_of, the bit accessors, chunking. -/

namespace Sys2Proof

/-- `unle32` undoes `le32` (R9). -/
theorem unle32_le32 (n : Word32) :
    unle32 (n.extractLsb' 0 8) (n.extractLsb' 8 8) (n.extractLsb' 16 8) (n.extractLsb' 24 8) = n := by
  apply BitVec.eq_of_getLsbD_eq
  intro i hi
  simp only [unle32, BitVec.getLsbD_or, BitVec.getLsbD_shiftLeft, BitVec.getLsbD_setWidth,
    BitVec.getLsbD_extractLsb']
  rcases Nat.lt_or_ge i 8 with h | h
  · simp [h, hi, show i < 16 by omega, show i < 24 by omega]
  · rcases Nat.lt_or_ge i 16 with h1 | h1
    · simp [hi, show ¬ i < 8 by omega, h1, show i < 24 by omega, show i - 8 < 8 by omega, show i - 8 < 32 by omega,
        show 8 + (i - 8) = i by omega]
    · rcases Nat.lt_or_ge i 24 with h2 | h2
      · simp [hi, show ¬ i < 8 by omega, show ¬ i < 16 by omega, h2, show ¬ i - 8 < 8 by omega,
          show i - 16 < 8 by omega, show i - 16 < 32 by omega, show 16 + (i - 16) = i by omega]
      · simp [hi, show ¬ i < 8 by omega, show ¬ i < 16 by omega, show ¬ i < 24 by omega,
          show ¬ i - 8 < 8 by omega, show ¬ i - 16 < 8 by omega, show i - 24 < 8 by omega, show i - 24 < 32 by omega,
          show 24 + (i - 24) = i by omega]

/-- The value of four little-endian bytes (R51). -/
theorem unle32_toNat (b0 b1 b2 b3 : Byte) :
    (unle32 b0 b1 b2 b3).toNat = b0.toNat + 256 * b1.toNat + 65536 * b2.toNat + 16777216 * b3.toNat := by
  have e : unle32 b0 b1 b2 b3 = ((b3 ++ b2) ++ (b1 ++ b0) : BitVec 32) := by
    apply BitVec.eq_of_getLsbD_eq
    intro i hi
    simp only [unle32, BitVec.getLsbD_or, BitVec.getLsbD_shiftLeft, BitVec.getLsbD_setWidth, BitVec.getLsbD_append]
    rcases Nat.lt_or_ge i 8 with h | h
    · simp [h, hi, show i < 16 by omega, show i < 24 by omega]
    · rcases Nat.lt_or_ge i 16 with h1 | h1
      · simp [hi, show ¬ i < 8 by omega, h1, show i < 24 by omega, show i - 8 < 32 by omega,
          BitVec.getLsbD_of_ge b0 i (by omega)]
      · rcases Nat.lt_or_ge i 24 with h2 | h2
        · simp [hi, show ¬ i < 8 by omega, show ¬ i < 16 by omega, h2, show i - 16 < 8 by omega,
            show i - 16 < 32 by omega, BitVec.getLsbD_of_ge b1 (i - 8) (by omega), BitVec.getLsbD_of_ge b0 i (by omega)]
        · simp [hi, show ¬ i < 8 by omega, show ¬ i < 16 by omega, show ¬ i < 24 by omega,
            show ¬ i - 16 < 8 by omega, show i - 24 < 32 by omega, show i - 16 - 8 = i - 24 by omega,
            BitVec.getLsbD_of_ge b1 (i - 8) (by omega), BitVec.getLsbD_of_ge b0 i (by omega),
            BitVec.getLsbD_of_ge b2 (i - 16) (by omega)]
  have h0 := b0.isLt
  have h1 := b1.isLt
  have h2 := b2.isLt
  have h3 := b3.isLt
  rw [e]
  simp only [BitVec.toNat_append, Nat.shiftLeft_eq]
  rw [← Nat.shiftLeft_eq b3.toNat, ← Nat.shiftLeft_eq b1.toNat, ← Nat.shiftLeft_add_eq_or_of_lt h2,
    ← Nat.shiftLeft_add_eq_or_of_lt h0, Nat.shiftLeft_eq, Nat.shiftLeft_eq, ← Nat.shiftLeft_eq _ (8 + 8),
    ← Nat.shiftLeft_add_eq_or_of_lt (by omega), Nat.shiftLeft_eq]
  omega

@[simp] theorem le32_length (n : Word32) : (le32 n).length = 4 := rfl

/-- `byte_count_of(n)` is the least number of bytes that holds `n` bits (R161). -/
theorem byteCountOf_spec (n : Word32) : n.toNat ≤ 8 * byteCountOf n ∧ 8 * byteCountOf n < n.toNat + 8 := by
  unfold byteCountOf
  omega

/-- The capacity check in bits: `byte_count_of(n) > CAP` iff `n > CAP_BITS` (R171). -/
theorem byteCountOf_gt_iff (n : Word32) (cap : Nat) : cap < byteCountOf n ↔ 8 * cap < n.toNat := by
  unfold byteCountOf
  omega

theorem byteCountOf_eq_zero (n : Word32) : byteCountOf n = 0 ↔ n = 0 := by
  constructor
  · intro h
    apply BitVec.eq_of_toNat_eq
    have := byteCountOf_spec n
    simp
    omega
  · rintro rfl; rfl

/-- `get_bit` reads a byte's own bit (R162). -/
@[simp] theorem byteGetBit_eq (b : Byte) (k : Nat) : byteGetBit b k = b.getLsbD k := by
  unfold byteGetBit
  have e : ((b >>> k) &&& 1#8) = if b.getLsbD k then 1#8 else 0#8 := by
    apply BitVec.eq_of_getLsbD_eq
    intro i hi
    simp only [BitVec.getLsbD_and, BitVec.getLsbD_ushiftRight]
    rcases Nat.eq_zero_or_pos i with rfl | h
    · cases b.getLsbD k <;> simp
    · have : (1#8).getLsbD i = false := by
        simp; omega
      cases b.getLsbD k <;> simp [this]
  rw [e]
  cases b.getLsbD k <;> rfl

/-- `set_bit` on a byte changes bit `k` and no other (R163). -/
theorem byteSetBit_getLsbD (b : Byte) (k j : Nat) (v : Bit) (hk : k < 8) :
    (byteSetBit b k v).getLsbD j = if j = k then v else b.getLsbD j := by
  unfold byteSetBit
  have one : ∀ j, ((1#8) <<< k).getLsbD j = decide (j = k) := by
    intro j
    simp only [BitVec.getLsbD_shiftLeft, BitVec.getLsbD_one]
    by_cases h : j = k
    · subst h; simp [hk]
    · by_cases h8 : j < 8 <;> by_cases h1 : j < k <;> simp [h, h8, h1]
      omega
  split
  · rename_i h
    subst h
    rw [BitVec.getLsbD_or, one]
    by_cases h : j = k <;> simp [h]
  · rename_i h
    have hv : v = false := by simpa using h
    subst hv
    rw [BitVec.getLsbD_and, BitVec.getLsbD_not, one]
    by_cases h : j = k
    · simp [h]
    · by_cases h8 : j < 8
      · simp [h, h8]
      · simp [h, BitVec.getLsbD_of_ge b j (by omega)]

namespace Machine

/-- `get_bit` of a buffer reads bit `i % 8` of byte `i / 8` (R52, R162). -/
theorem Memory.getBit_eq (m : Memory) (i : Nat) : m.getBit i = (m.peek (i / 8)).getLsbD (i % 8) := by
  simp [Memory.getBit]

/-- `set_bit` of a buffer changes that bit and no other (R163). -/
theorem Memory.getBit_setBit (m : Memory) (i j : Nat) (v : Bit) :
    (m.setBit i v).getBit j = if j = i then v else m.getBit j := by
  simp only [Memory.getBit_eq, Memory.setBit, Memory.peek_poke]
  by_cases h : i / 8 = j / 8
  · rw [if_pos h, byteSetBit_getLsbD _ _ _ _ (Nat.mod_lt _ (by omega))]
    by_cases hj : j = i
    · simp [hj]
    · have : ¬ j % 8 = i % 8 := by omega
      simp [hj, this, h]
  · have : ¬ j = i := by rintro rfl; exact h rfl
    simp [h, this]

end Machine

/-! ### Chunking -/

theorem ceilDiv_zero (c : Nat) (hc : 0 < c) : ceilDiv 0 c = 0 := by
  unfold ceilDiv
  exact Nat.div_eq_of_lt (by omega)

theorem ceilDiv_step (n c : Nat) (hc : 0 < c) (hn : 0 < n) : ceilDiv n c = ceilDiv (n - c) c + 1 := by
  unfold ceilDiv
  rcases Nat.lt_or_ge n c with h | h
  · have h1 : n - c = 0 := by omega
    rw [h1, Nat.div_eq_of_lt (show 0 + c - 1 < c by omega)]
    exact Nat.div_eq_of_lt_le (by omega) (by omega)
  · rw [show n + c - 1 = (n - c + c - 1) + c by omega, Nat.add_div_right _ hc]

@[simp] theorem chunk_nil (c : Nat) (hc : 0 < c) : chunk c [] = [] := by
  simp [chunk, ceilDiv_zero c hc]

/-- The first packet of a vector, and the packets of the rest (R75). -/
theorem chunk_step (c : Nat) (v : List Byte) (hc : 0 < c) (hv : v ≠ []) :
    chunk c v = v.take c :: chunk c (v.drop c) := by
  unfold chunk
  rw [ceilDiv_step v.length c hc (List.length_pos_iff.mpr hv), List.range_succ_eq_map]
  simp only [List.map_cons, List.map_map, List.length_drop]
  congr 1
  · simp
  apply List.map_congr_left
  intro k _
  simp only [Function.comp, List.drop_drop]
  congr 2
  rw [Nat.succ_mul]
  omega

end Sys2Proof
end

