-- ==== Sys2Proof/Laws/State.lean ====
section
/-! SUPPORT. One lemma per field per named update of the state, each true by rfl, so that no proof unfolds a record update. -/

namespace Sys2Proof.Machine

variable (s : State)

/-! ### `State.raise` -/

@[simp] theorem State.raise_phase (x : EngineError) : (s.raise x).phase = .header := rfl
@[simp] theorem State.raise_bitCount (x : EngineError) : (s.raise x).bitCount = s.bitCount := rfl
@[simp] theorem State.raise_offset (x : EngineError) : (s.raise x).offset = s.offset := rfl
@[simp] theorem State.raise_i (x : EngineError) : (s.raise x).i = s.i := rfl
@[simp] theorem State.raise_tmsBuf (x : EngineError) : (s.raise x).tmsBuf = s.tmsBuf := rfl
@[simp] theorem State.raise_tdiBuf (x : EngineError) : (s.raise x).tdiBuf = s.tdiBuf := rfl
@[simp] theorem State.raise_tdoBuf (x : EngineError) : (s.raise x).tdoBuf = s.tdoBuf := rfl
@[simp] theorem State.raise_err (x : EngineError) : (s.raise x).err = s.err.set x := rfl
@[simp] theorem State.raise_tck (x : EngineError) : (s.raise x).tck = s.tck := rfl
@[simp] theorem State.raise_tms (x : EngineError) : (s.raise x).tms = s.tms := rfl
@[simp] theorem State.raise_tdi (x : EngineError) : (s.raise x).tdi = s.tdi := rfl
@[simp] theorem State.raise_rxQ (x : EngineError) : (s.raise x).rxQ = s.rxQ := rfl
@[simp] theorem State.raise_txQ (x : EngineError) : (s.raise x).txQ = s.txQ := rfl
@[simp] theorem State.raise_pinTrace (x : EngineError) : (s.raise x).pinTrace = s.pinTrace := rfl
@[simp] theorem State.raise_target (x : EngineError) : (s.raise x).target = s.target := rfl
@[simp] theorem State.raise_tdo (x : EngineError) : (s.raise x).tdo = s.tdo := rfl
@[simp] theorem State.raise_session (x : EngineError) : (s.raise x).session = s.session := rfl
@[simp] theorem State.raise_tcpIn (x : EngineError) : (s.raise x).tcpIn = s.tcpIn := rfl
@[simp] theorem State.raise_tcpOut (x : EngineError) : (s.raise x).tcpOut = s.tcpOut := rfl
@[simp] theorem State.raise_flight (x : EngineError) : (s.raise x).flight = s.flight := rfl
@[simp] theorem State.raise_drain (x : EngineError) : (s.raise x).drain = s.drain := rfl
@[simp] theorem State.raise_xresetHeld (x : EngineError) : (s.raise x).xresetHeld = s.xresetHeld := rfl
@[simp] theorem State.raise_hostLog (x : EngineError) : (s.raise x).hostLog = s.hostLog := rfl
@[simp] theorem State.raise_cfg (x : EngineError) : (s.raise x).cfg = s.cfg := rfl
@[simp] theorem State.raise_agenda (x : EngineError) : (s.raise x).agenda = s.agenda := rfl
@[simp] theorem State.raise_result (x : EngineError) : (s.raise x).result = s.result := rfl
@[simp] theorem State.raise_powerOns (x : EngineError) : (s.raise x).powerOns = s.powerOns := rfl

/-! ### `State.sendPackets` -/

@[simp] theorem State.sendPackets_phase (ps : List Packet) : (s.sendPackets ps).phase = s.phase := rfl
@[simp] theorem State.sendPackets_bitCount (ps : List Packet) : (s.sendPackets ps).bitCount = s.bitCount := rfl
@[simp] theorem State.sendPackets_offset (ps : List Packet) : (s.sendPackets ps).offset = s.offset := rfl
@[simp] theorem State.sendPackets_i (ps : List Packet) : (s.sendPackets ps).i = s.i := rfl
@[simp] theorem State.sendPackets_tmsBuf (ps : List Packet) : (s.sendPackets ps).tmsBuf = s.tmsBuf := rfl
@[simp] theorem State.sendPackets_tdiBuf (ps : List Packet) : (s.sendPackets ps).tdiBuf = s.tdiBuf := rfl
@[simp] theorem State.sendPackets_tdoBuf (ps : List Packet) : (s.sendPackets ps).tdoBuf = s.tdoBuf := rfl
@[simp] theorem State.sendPackets_err (ps : List Packet) : (s.sendPackets ps).err = s.err := rfl
@[simp] theorem State.sendPackets_tck (ps : List Packet) : (s.sendPackets ps).tck = s.tck := rfl
@[simp] theorem State.sendPackets_tms (ps : List Packet) : (s.sendPackets ps).tms = s.tms := rfl
@[simp] theorem State.sendPackets_tdi (ps : List Packet) : (s.sendPackets ps).tdi = s.tdi := rfl
@[simp] theorem State.sendPackets_rxQ (ps : List Packet) : (s.sendPackets ps).rxQ = s.rxQ ++ ps := rfl
@[simp] theorem State.sendPackets_txQ (ps : List Packet) : (s.sendPackets ps).txQ = s.txQ := rfl
@[simp] theorem State.sendPackets_pinTrace (ps : List Packet) : (s.sendPackets ps).pinTrace = s.pinTrace := rfl
@[simp] theorem State.sendPackets_target (ps : List Packet) : (s.sendPackets ps).target = s.target := rfl
@[simp] theorem State.sendPackets_tdo (ps : List Packet) : (s.sendPackets ps).tdo = s.tdo := rfl
@[simp] theorem State.sendPackets_session (ps : List Packet) : (s.sendPackets ps).session = s.session := rfl
@[simp] theorem State.sendPackets_tcpIn (ps : List Packet) : (s.sendPackets ps).tcpIn = s.tcpIn := rfl
@[simp] theorem State.sendPackets_tcpOut (ps : List Packet) : (s.sendPackets ps).tcpOut = s.tcpOut := rfl
@[simp] theorem State.sendPackets_flight (ps : List Packet) : (s.sendPackets ps).flight = s.flight := rfl
@[simp] theorem State.sendPackets_drain (ps : List Packet) : (s.sendPackets ps).drain = s.drain := rfl
@[simp] theorem State.sendPackets_xresetHeld (ps : List Packet) : (s.sendPackets ps).xresetHeld = s.xresetHeld := rfl
@[simp] theorem State.sendPackets_hostLog (ps : List Packet) : (s.sendPackets ps).hostLog = s.hostLog := rfl
@[simp] theorem State.sendPackets_cfg (ps : List Packet) : (s.sendPackets ps).cfg = s.cfg := rfl
@[simp] theorem State.sendPackets_agenda (ps : List Packet) : (s.sendPackets ps).agenda = s.agenda := rfl
@[simp] theorem State.sendPackets_result (ps : List Packet) : (s.sendPackets ps).result = s.result := rfl
@[simp] theorem State.sendPackets_powerOns (ps : List Packet) : (s.sendPackets ps).powerOns = s.powerOns := rfl

/-! ### `State.emitPackets` -/

@[simp] theorem State.emitPackets_phase (ps : List Packet) : (s.emitPackets ps).phase = s.phase := rfl
@[simp] theorem State.emitPackets_bitCount (ps : List Packet) : (s.emitPackets ps).bitCount = s.bitCount := rfl
@[simp] theorem State.emitPackets_offset (ps : List Packet) : (s.emitPackets ps).offset = s.offset := rfl
@[simp] theorem State.emitPackets_i (ps : List Packet) : (s.emitPackets ps).i = s.i := rfl
@[simp] theorem State.emitPackets_tmsBuf (ps : List Packet) : (s.emitPackets ps).tmsBuf = s.tmsBuf := rfl
@[simp] theorem State.emitPackets_tdiBuf (ps : List Packet) : (s.emitPackets ps).tdiBuf = s.tdiBuf := rfl
@[simp] theorem State.emitPackets_tdoBuf (ps : List Packet) : (s.emitPackets ps).tdoBuf = s.tdoBuf := rfl
@[simp] theorem State.emitPackets_err (ps : List Packet) : (s.emitPackets ps).err = s.err := rfl
@[simp] theorem State.emitPackets_tck (ps : List Packet) : (s.emitPackets ps).tck = s.tck := rfl
@[simp] theorem State.emitPackets_tms (ps : List Packet) : (s.emitPackets ps).tms = s.tms := rfl
@[simp] theorem State.emitPackets_tdi (ps : List Packet) : (s.emitPackets ps).tdi = s.tdi := rfl
@[simp] theorem State.emitPackets_rxQ (ps : List Packet) : (s.emitPackets ps).rxQ = s.rxQ := rfl
@[simp] theorem State.emitPackets_txQ (ps : List Packet) : (s.emitPackets ps).txQ = s.txQ ++ ps := rfl
@[simp] theorem State.emitPackets_pinTrace (ps : List Packet) : (s.emitPackets ps).pinTrace = s.pinTrace := rfl
@[simp] theorem State.emitPackets_target (ps : List Packet) : (s.emitPackets ps).target = s.target := rfl
@[simp] theorem State.emitPackets_tdo (ps : List Packet) : (s.emitPackets ps).tdo = s.tdo := rfl
@[simp] theorem State.emitPackets_session (ps : List Packet) : (s.emitPackets ps).session = s.session := rfl
@[simp] theorem State.emitPackets_tcpIn (ps : List Packet) : (s.emitPackets ps).tcpIn = s.tcpIn := rfl
@[simp] theorem State.emitPackets_tcpOut (ps : List Packet) : (s.emitPackets ps).tcpOut = s.tcpOut := rfl
@[simp] theorem State.emitPackets_flight (ps : List Packet) : (s.emitPackets ps).flight = s.flight := rfl
@[simp] theorem State.emitPackets_drain (ps : List Packet) : (s.emitPackets ps).drain = s.drain := rfl
@[simp] theorem State.emitPackets_xresetHeld (ps : List Packet) : (s.emitPackets ps).xresetHeld = s.xresetHeld := rfl
@[simp] theorem State.emitPackets_hostLog (ps : List Packet) : (s.emitPackets ps).hostLog = s.hostLog := rfl
@[simp] theorem State.emitPackets_cfg (ps : List Packet) : (s.emitPackets ps).cfg = s.cfg := rfl
@[simp] theorem State.emitPackets_agenda (ps : List Packet) : (s.emitPackets ps).agenda = s.agenda := rfl
@[simp] theorem State.emitPackets_result (ps : List Packet) : (s.emitPackets ps).result = s.result := rfl
@[simp] theorem State.emitPackets_powerOns (ps : List Packet) : (s.emitPackets ps).powerOns = s.powerOns := rfl

/-! ### `State.tcpWrite` -/

@[simp] theorem State.tcpWrite_phase (bs : List Byte) : (s.tcpWrite bs).phase = s.phase := rfl
@[simp] theorem State.tcpWrite_bitCount (bs : List Byte) : (s.tcpWrite bs).bitCount = s.bitCount := rfl
@[simp] theorem State.tcpWrite_offset (bs : List Byte) : (s.tcpWrite bs).offset = s.offset := rfl
@[simp] theorem State.tcpWrite_i (bs : List Byte) : (s.tcpWrite bs).i = s.i := rfl
@[simp] theorem State.tcpWrite_tmsBuf (bs : List Byte) : (s.tcpWrite bs).tmsBuf = s.tmsBuf := rfl
@[simp] theorem State.tcpWrite_tdiBuf (bs : List Byte) : (s.tcpWrite bs).tdiBuf = s.tdiBuf := rfl
@[simp] theorem State.tcpWrite_tdoBuf (bs : List Byte) : (s.tcpWrite bs).tdoBuf = s.tdoBuf := rfl
@[simp] theorem State.tcpWrite_err (bs : List Byte) : (s.tcpWrite bs).err = s.err := rfl
@[simp] theorem State.tcpWrite_tck (bs : List Byte) : (s.tcpWrite bs).tck = s.tck := rfl
@[simp] theorem State.tcpWrite_tms (bs : List Byte) : (s.tcpWrite bs).tms = s.tms := rfl
@[simp] theorem State.tcpWrite_tdi (bs : List Byte) : (s.tcpWrite bs).tdi = s.tdi := rfl
@[simp] theorem State.tcpWrite_rxQ (bs : List Byte) : (s.tcpWrite bs).rxQ = s.rxQ := rfl
@[simp] theorem State.tcpWrite_txQ (bs : List Byte) : (s.tcpWrite bs).txQ = s.txQ := rfl
@[simp] theorem State.tcpWrite_pinTrace (bs : List Byte) : (s.tcpWrite bs).pinTrace = s.pinTrace := rfl
@[simp] theorem State.tcpWrite_target (bs : List Byte) : (s.tcpWrite bs).target = s.target := rfl
@[simp] theorem State.tcpWrite_tdo (bs : List Byte) : (s.tcpWrite bs).tdo = s.tdo := rfl
@[simp] theorem State.tcpWrite_session (bs : List Byte) : (s.tcpWrite bs).session = s.session := rfl
@[simp] theorem State.tcpWrite_tcpIn (bs : List Byte) : (s.tcpWrite bs).tcpIn = s.tcpIn := rfl
@[simp] theorem State.tcpWrite_tcpOut (bs : List Byte) : (s.tcpWrite bs).tcpOut = s.tcpOut ++ bs := rfl
@[simp] theorem State.tcpWrite_flight (bs : List Byte) : (s.tcpWrite bs).flight = s.flight := rfl
@[simp] theorem State.tcpWrite_drain (bs : List Byte) : (s.tcpWrite bs).drain = s.drain := rfl
@[simp] theorem State.tcpWrite_xresetHeld (bs : List Byte) : (s.tcpWrite bs).xresetHeld = s.xresetHeld := rfl
@[simp] theorem State.tcpWrite_hostLog (bs : List Byte) : (s.tcpWrite bs).hostLog = s.hostLog := rfl
@[simp] theorem State.tcpWrite_cfg (bs : List Byte) : (s.tcpWrite bs).cfg = s.cfg := rfl
@[simp] theorem State.tcpWrite_agenda (bs : List Byte) : (s.tcpWrite bs).agenda = s.agenda := rfl
@[simp] theorem State.tcpWrite_result (bs : List Byte) : (s.tcpWrite bs).result = s.result := rfl
@[simp] theorem State.tcpWrite_powerOns (bs : List Byte) : (s.tcpWrite bs).powerOns = s.powerOns := rfl

/-! ### `State.hostNote` -/

@[simp] theorem State.hostNote_phase (e : HostError) : (s.hostNote e).phase = s.phase := rfl
@[simp] theorem State.hostNote_bitCount (e : HostError) : (s.hostNote e).bitCount = s.bitCount := rfl
@[simp] theorem State.hostNote_offset (e : HostError) : (s.hostNote e).offset = s.offset := rfl
@[simp] theorem State.hostNote_i (e : HostError) : (s.hostNote e).i = s.i := rfl
@[simp] theorem State.hostNote_tmsBuf (e : HostError) : (s.hostNote e).tmsBuf = s.tmsBuf := rfl
@[simp] theorem State.hostNote_tdiBuf (e : HostError) : (s.hostNote e).tdiBuf = s.tdiBuf := rfl
@[simp] theorem State.hostNote_tdoBuf (e : HostError) : (s.hostNote e).tdoBuf = s.tdoBuf := rfl
@[simp] theorem State.hostNote_err (e : HostError) : (s.hostNote e).err = s.err := rfl
@[simp] theorem State.hostNote_tck (e : HostError) : (s.hostNote e).tck = s.tck := rfl
@[simp] theorem State.hostNote_tms (e : HostError) : (s.hostNote e).tms = s.tms := rfl
@[simp] theorem State.hostNote_tdi (e : HostError) : (s.hostNote e).tdi = s.tdi := rfl
@[simp] theorem State.hostNote_rxQ (e : HostError) : (s.hostNote e).rxQ = s.rxQ := rfl
@[simp] theorem State.hostNote_txQ (e : HostError) : (s.hostNote e).txQ = s.txQ := rfl
@[simp] theorem State.hostNote_pinTrace (e : HostError) : (s.hostNote e).pinTrace = s.pinTrace := rfl
@[simp] theorem State.hostNote_target (e : HostError) : (s.hostNote e).target = s.target := rfl
@[simp] theorem State.hostNote_tdo (e : HostError) : (s.hostNote e).tdo = s.tdo := rfl
@[simp] theorem State.hostNote_session (e : HostError) : (s.hostNote e).session = s.session := rfl
@[simp] theorem State.hostNote_tcpIn (e : HostError) : (s.hostNote e).tcpIn = s.tcpIn := rfl
@[simp] theorem State.hostNote_tcpOut (e : HostError) : (s.hostNote e).tcpOut = s.tcpOut := rfl
@[simp] theorem State.hostNote_flight (e : HostError) : (s.hostNote e).flight = s.flight := rfl
@[simp] theorem State.hostNote_drain (e : HostError) : (s.hostNote e).drain = s.drain := rfl
@[simp] theorem State.hostNote_xresetHeld (e : HostError) : (s.hostNote e).xresetHeld = s.xresetHeld := rfl
@[simp] theorem State.hostNote_hostLog (e : HostError) : (s.hostNote e).hostLog = s.hostLog ++ [e] := rfl
@[simp] theorem State.hostNote_cfg (e : HostError) : (s.hostNote e).cfg = s.cfg := rfl
@[simp] theorem State.hostNote_agenda (e : HostError) : (s.hostNote e).agenda = s.agenda := rfl
@[simp] theorem State.hostNote_result (e : HostError) : (s.hostNote e).result = s.result := rfl
@[simp] theorem State.hostNote_powerOns (e : HostError) : (s.hostNote e).powerOns = s.powerOns := rfl

/-! ### `State.giveResult` -/

@[simp] theorem State.giveResult_phase (r : CallResult) : (s.giveResult r).phase = s.phase := rfl
@[simp] theorem State.giveResult_bitCount (r : CallResult) : (s.giveResult r).bitCount = s.bitCount := rfl
@[simp] theorem State.giveResult_offset (r : CallResult) : (s.giveResult r).offset = s.offset := rfl
@[simp] theorem State.giveResult_i (r : CallResult) : (s.giveResult r).i = s.i := rfl
@[simp] theorem State.giveResult_tmsBuf (r : CallResult) : (s.giveResult r).tmsBuf = s.tmsBuf := rfl
@[simp] theorem State.giveResult_tdiBuf (r : CallResult) : (s.giveResult r).tdiBuf = s.tdiBuf := rfl
@[simp] theorem State.giveResult_tdoBuf (r : CallResult) : (s.giveResult r).tdoBuf = s.tdoBuf := rfl
@[simp] theorem State.giveResult_err (r : CallResult) : (s.giveResult r).err = s.err := rfl
@[simp] theorem State.giveResult_tck (r : CallResult) : (s.giveResult r).tck = s.tck := rfl
@[simp] theorem State.giveResult_tms (r : CallResult) : (s.giveResult r).tms = s.tms := rfl
@[simp] theorem State.giveResult_tdi (r : CallResult) : (s.giveResult r).tdi = s.tdi := rfl
@[simp] theorem State.giveResult_rxQ (r : CallResult) : (s.giveResult r).rxQ = s.rxQ := rfl
@[simp] theorem State.giveResult_txQ (r : CallResult) : (s.giveResult r).txQ = s.txQ := rfl
@[simp] theorem State.giveResult_pinTrace (r : CallResult) : (s.giveResult r).pinTrace = s.pinTrace := rfl
@[simp] theorem State.giveResult_target (r : CallResult) : (s.giveResult r).target = s.target := rfl
@[simp] theorem State.giveResult_tdo (r : CallResult) : (s.giveResult r).tdo = s.tdo := rfl
@[simp] theorem State.giveResult_session (r : CallResult) : (s.giveResult r).session = s.session := rfl
@[simp] theorem State.giveResult_tcpIn (r : CallResult) : (s.giveResult r).tcpIn = s.tcpIn := rfl
@[simp] theorem State.giveResult_tcpOut (r : CallResult) : (s.giveResult r).tcpOut = s.tcpOut := rfl
@[simp] theorem State.giveResult_flight (r : CallResult) : (s.giveResult r).flight = s.flight := rfl
@[simp] theorem State.giveResult_drain (r : CallResult) : (s.giveResult r).drain = s.drain := rfl
@[simp] theorem State.giveResult_xresetHeld (r : CallResult) : (s.giveResult r).xresetHeld = s.xresetHeld := rfl
@[simp] theorem State.giveResult_hostLog (r : CallResult) : (s.giveResult r).hostLog = s.hostLog := rfl
@[simp] theorem State.giveResult_cfg (r : CallResult) : (s.giveResult r).cfg = s.cfg := rfl
@[simp] theorem State.giveResult_agenda (r : CallResult) : (s.giveResult r).agenda = s.agenda := rfl
@[simp] theorem State.giveResult_result (r : CallResult) : (s.giveResult r).result = r := rfl
@[simp] theorem State.giveResult_powerOns (r : CallResult) : (s.giveResult r).powerOns = s.powerOns := rfl

/-! ### `State.zeroBuffers` -/

@[simp] theorem State.zeroBuffers_phase : (s.zeroBuffers).phase = s.phase := rfl
@[simp] theorem State.zeroBuffers_bitCount : (s.zeroBuffers).bitCount = s.bitCount := rfl
@[simp] theorem State.zeroBuffers_offset : (s.zeroBuffers).offset = s.offset := rfl
@[simp] theorem State.zeroBuffers_i : (s.zeroBuffers).i = s.i := rfl
@[simp] theorem State.zeroBuffers_tmsBuf : (s.zeroBuffers).tmsBuf = Memory.zeroed := rfl
@[simp] theorem State.zeroBuffers_tdiBuf : (s.zeroBuffers).tdiBuf = Memory.zeroed := rfl
@[simp] theorem State.zeroBuffers_tdoBuf : (s.zeroBuffers).tdoBuf = Memory.zeroed := rfl
@[simp] theorem State.zeroBuffers_err : (s.zeroBuffers).err = s.err := rfl
@[simp] theorem State.zeroBuffers_tck : (s.zeroBuffers).tck = s.tck := rfl
@[simp] theorem State.zeroBuffers_tms : (s.zeroBuffers).tms = s.tms := rfl
@[simp] theorem State.zeroBuffers_tdi : (s.zeroBuffers).tdi = s.tdi := rfl
@[simp] theorem State.zeroBuffers_rxQ : (s.zeroBuffers).rxQ = s.rxQ := rfl
@[simp] theorem State.zeroBuffers_txQ : (s.zeroBuffers).txQ = s.txQ := rfl
@[simp] theorem State.zeroBuffers_pinTrace : (s.zeroBuffers).pinTrace = s.pinTrace := rfl
@[simp] theorem State.zeroBuffers_target : (s.zeroBuffers).target = s.target := rfl
@[simp] theorem State.zeroBuffers_tdo : (s.zeroBuffers).tdo = s.tdo := rfl
@[simp] theorem State.zeroBuffers_session : (s.zeroBuffers).session = s.session := rfl
@[simp] theorem State.zeroBuffers_tcpIn : (s.zeroBuffers).tcpIn = s.tcpIn := rfl
@[simp] theorem State.zeroBuffers_tcpOut : (s.zeroBuffers).tcpOut = s.tcpOut := rfl
@[simp] theorem State.zeroBuffers_flight : (s.zeroBuffers).flight = s.flight := rfl
@[simp] theorem State.zeroBuffers_drain : (s.zeroBuffers).drain = s.drain := rfl
@[simp] theorem State.zeroBuffers_xresetHeld : (s.zeroBuffers).xresetHeld = s.xresetHeld := rfl
@[simp] theorem State.zeroBuffers_hostLog : (s.zeroBuffers).hostLog = s.hostLog := rfl
@[simp] theorem State.zeroBuffers_cfg : (s.zeroBuffers).cfg = s.cfg := rfl
@[simp] theorem State.zeroBuffers_agenda : (s.zeroBuffers).agenda = s.agenda := rfl
@[simp] theorem State.zeroBuffers_result : (s.zeroBuffers).result = s.result := rfl
@[simp] theorem State.zeroBuffers_powerOns : (s.zeroBuffers).powerOns = s.powerOns := rfl

/-! ### `State.setBuf` -/

@[simp] theorem State.setBuf_phase (b : BufId) (m : Memory) : (s.setBuf b m).phase = s.phase := rfl
@[simp] theorem State.setBuf_bitCount (b : BufId) (m : Memory) : (s.setBuf b m).bitCount = s.bitCount := rfl
@[simp] theorem State.setBuf_offset (b : BufId) (m : Memory) : (s.setBuf b m).offset = s.offset := rfl
@[simp] theorem State.setBuf_i (b : BufId) (m : Memory) : (s.setBuf b m).i = s.i := rfl
@[simp] theorem State.setBuf_tmsBuf (b : BufId) (m : Memory) : (s.setBuf b m).tmsBuf = if b = .tms then m else s.tmsBuf := rfl
@[simp] theorem State.setBuf_tdiBuf (b : BufId) (m : Memory) : (s.setBuf b m).tdiBuf = if b = .tdi then m else s.tdiBuf := rfl
@[simp] theorem State.setBuf_tdoBuf (b : BufId) (m : Memory) : (s.setBuf b m).tdoBuf = if b = .tdo then m else s.tdoBuf := rfl
@[simp] theorem State.setBuf_err (b : BufId) (m : Memory) : (s.setBuf b m).err = s.err := rfl
@[simp] theorem State.setBuf_tck (b : BufId) (m : Memory) : (s.setBuf b m).tck = s.tck := rfl
@[simp] theorem State.setBuf_tms (b : BufId) (m : Memory) : (s.setBuf b m).tms = s.tms := rfl
@[simp] theorem State.setBuf_tdi (b : BufId) (m : Memory) : (s.setBuf b m).tdi = s.tdi := rfl
@[simp] theorem State.setBuf_rxQ (b : BufId) (m : Memory) : (s.setBuf b m).rxQ = s.rxQ := rfl
@[simp] theorem State.setBuf_txQ (b : BufId) (m : Memory) : (s.setBuf b m).txQ = s.txQ := rfl
@[simp] theorem State.setBuf_pinTrace (b : BufId) (m : Memory) : (s.setBuf b m).pinTrace = s.pinTrace := rfl
@[simp] theorem State.setBuf_target (b : BufId) (m : Memory) : (s.setBuf b m).target = s.target := rfl
@[simp] theorem State.setBuf_tdo (b : BufId) (m : Memory) : (s.setBuf b m).tdo = s.tdo := rfl
@[simp] theorem State.setBuf_session (b : BufId) (m : Memory) : (s.setBuf b m).session = s.session := rfl
@[simp] theorem State.setBuf_tcpIn (b : BufId) (m : Memory) : (s.setBuf b m).tcpIn = s.tcpIn := rfl
@[simp] theorem State.setBuf_tcpOut (b : BufId) (m : Memory) : (s.setBuf b m).tcpOut = s.tcpOut := rfl
@[simp] theorem State.setBuf_flight (b : BufId) (m : Memory) : (s.setBuf b m).flight = s.flight := rfl
@[simp] theorem State.setBuf_drain (b : BufId) (m : Memory) : (s.setBuf b m).drain = s.drain := rfl
@[simp] theorem State.setBuf_xresetHeld (b : BufId) (m : Memory) : (s.setBuf b m).xresetHeld = s.xresetHeld := rfl
@[simp] theorem State.setBuf_hostLog (b : BufId) (m : Memory) : (s.setBuf b m).hostLog = s.hostLog := rfl
@[simp] theorem State.setBuf_cfg (b : BufId) (m : Memory) : (s.setBuf b m).cfg = s.cfg := rfl
@[simp] theorem State.setBuf_agenda (b : BufId) (m : Memory) : (s.setBuf b m).agenda = s.agenda := rfl
@[simp] theorem State.setBuf_result (b : BufId) (m : Memory) : (s.setBuf b m).result = s.result := rfl
@[simp] theorem State.setBuf_powerOns (b : BufId) (m : Memory) : (s.setBuf b m).powerOns = s.powerOns := rfl

/-! ### `State.pinWrite` -/

@[simp] theorem State.pinWrite_phase (p : Pin) (b : Bit) : (s.pinWrite p b).phase = s.phase := rfl
@[simp] theorem State.pinWrite_bitCount (p : Pin) (b : Bit) : (s.pinWrite p b).bitCount = s.bitCount := rfl
@[simp] theorem State.pinWrite_offset (p : Pin) (b : Bit) : (s.pinWrite p b).offset = s.offset := rfl
@[simp] theorem State.pinWrite_i (p : Pin) (b : Bit) : (s.pinWrite p b).i = s.i := rfl
@[simp] theorem State.pinWrite_tmsBuf (p : Pin) (b : Bit) : (s.pinWrite p b).tmsBuf = s.tmsBuf := rfl
@[simp] theorem State.pinWrite_tdiBuf (p : Pin) (b : Bit) : (s.pinWrite p b).tdiBuf = s.tdiBuf := rfl
@[simp] theorem State.pinWrite_tdoBuf (p : Pin) (b : Bit) : (s.pinWrite p b).tdoBuf = s.tdoBuf := rfl
@[simp] theorem State.pinWrite_err (p : Pin) (b : Bit) : (s.pinWrite p b).err = s.err := rfl
@[simp] theorem State.pinWrite_tck (p : Pin) (b : Bit) : (s.pinWrite p b).tck = if p = .tck then b else s.tck := rfl
@[simp] theorem State.pinWrite_tms (p : Pin) (b : Bit) : (s.pinWrite p b).tms = if p = .tms then b else s.tms := rfl
@[simp] theorem State.pinWrite_tdi (p : Pin) (b : Bit) : (s.pinWrite p b).tdi = if p = .tdi then b else s.tdi := rfl
@[simp] theorem State.pinWrite_rxQ (p : Pin) (b : Bit) : (s.pinWrite p b).rxQ = s.rxQ := rfl
@[simp] theorem State.pinWrite_txQ (p : Pin) (b : Bit) : (s.pinWrite p b).txQ = s.txQ := rfl
@[simp] theorem State.pinWrite_pinTrace (p : Pin) (b : Bit) : (s.pinWrite p b).pinTrace = s.pinTrace ++ [.write p b] := rfl
@[simp] theorem State.pinWrite_target (p : Pin) (b : Bit) : (s.pinWrite p b).target =
    if s.risingEdge p b then (s.target.apply s.tms s.tdi).1 else s.target := rfl
@[simp] theorem State.pinWrite_tdo (p : Pin) (b : Bit) : (s.pinWrite p b).tdo =
    if s.risingEdge p b then (s.target.apply s.tms s.tdi).2 else s.tdo := rfl
@[simp] theorem State.pinWrite_session (p : Pin) (b : Bit) : (s.pinWrite p b).session = s.session := rfl
@[simp] theorem State.pinWrite_tcpIn (p : Pin) (b : Bit) : (s.pinWrite p b).tcpIn = s.tcpIn := rfl
@[simp] theorem State.pinWrite_tcpOut (p : Pin) (b : Bit) : (s.pinWrite p b).tcpOut = s.tcpOut := rfl
@[simp] theorem State.pinWrite_flight (p : Pin) (b : Bit) : (s.pinWrite p b).flight = s.flight := rfl
@[simp] theorem State.pinWrite_drain (p : Pin) (b : Bit) : (s.pinWrite p b).drain = s.drain := rfl
@[simp] theorem State.pinWrite_xresetHeld (p : Pin) (b : Bit) : (s.pinWrite p b).xresetHeld = s.xresetHeld := rfl
@[simp] theorem State.pinWrite_hostLog (p : Pin) (b : Bit) : (s.pinWrite p b).hostLog = s.hostLog := rfl
@[simp] theorem State.pinWrite_cfg (p : Pin) (b : Bit) : (s.pinWrite p b).cfg = s.cfg := rfl
@[simp] theorem State.pinWrite_agenda (p : Pin) (b : Bit) : (s.pinWrite p b).agenda = s.agenda := rfl
@[simp] theorem State.pinWrite_result (p : Pin) (b : Bit) : (s.pinWrite p b).result = s.result := rfl
@[simp] theorem State.pinWrite_powerOns (p : Pin) (b : Bit) : (s.pinWrite p b).powerOns = s.powerOns := rfl

/-! ### `State.pinRead` -/

@[simp] theorem State.pinRead_phase : (s.pinRead).phase = s.phase := rfl
@[simp] theorem State.pinRead_bitCount : (s.pinRead).bitCount = s.bitCount := rfl
@[simp] theorem State.pinRead_offset : (s.pinRead).offset = s.offset := rfl
@[simp] theorem State.pinRead_i : (s.pinRead).i = s.i := rfl
@[simp] theorem State.pinRead_tmsBuf : (s.pinRead).tmsBuf = s.tmsBuf := rfl
@[simp] theorem State.pinRead_tdiBuf : (s.pinRead).tdiBuf = s.tdiBuf := rfl
@[simp] theorem State.pinRead_tdoBuf : (s.pinRead).tdoBuf = s.tdoBuf := rfl
@[simp] theorem State.pinRead_err : (s.pinRead).err = s.err := rfl
@[simp] theorem State.pinRead_tck : (s.pinRead).tck = s.tck := rfl
@[simp] theorem State.pinRead_tms : (s.pinRead).tms = s.tms := rfl
@[simp] theorem State.pinRead_tdi : (s.pinRead).tdi = s.tdi := rfl
@[simp] theorem State.pinRead_rxQ : (s.pinRead).rxQ = s.rxQ := rfl
@[simp] theorem State.pinRead_txQ : (s.pinRead).txQ = s.txQ := rfl
@[simp] theorem State.pinRead_pinTrace : (s.pinRead).pinTrace = s.pinTrace ++ [.read s.tdo] := rfl
@[simp] theorem State.pinRead_target : (s.pinRead).target = s.target := rfl
@[simp] theorem State.pinRead_tdo : (s.pinRead).tdo = s.tdo := rfl
@[simp] theorem State.pinRead_session : (s.pinRead).session = s.session := rfl
@[simp] theorem State.pinRead_tcpIn : (s.pinRead).tcpIn = s.tcpIn := rfl
@[simp] theorem State.pinRead_tcpOut : (s.pinRead).tcpOut = s.tcpOut := rfl
@[simp] theorem State.pinRead_flight : (s.pinRead).flight = s.flight := rfl
@[simp] theorem State.pinRead_drain : (s.pinRead).drain = s.drain := rfl
@[simp] theorem State.pinRead_xresetHeld : (s.pinRead).xresetHeld = s.xresetHeld := rfl
@[simp] theorem State.pinRead_hostLog : (s.pinRead).hostLog = s.hostLog := rfl
@[simp] theorem State.pinRead_cfg : (s.pinRead).cfg = s.cfg := rfl
@[simp] theorem State.pinRead_agenda : (s.pinRead).agenda = s.agenda := rfl
@[simp] theorem State.pinRead_result : (s.pinRead).result = s.result := rfl
@[simp] theorem State.pinRead_powerOns : (s.pinRead).powerOns = s.powerOns := rfl

/-! ### `State.xresetTaken` -/

@[simp] theorem State.xresetTaken_phase : (s.xresetTaken).phase = .header := rfl
@[simp] theorem State.xresetTaken_bitCount : (s.xresetTaken).bitCount = s.bitCount := rfl
@[simp] theorem State.xresetTaken_offset : (s.xresetTaken).offset = 0 := rfl
@[simp] theorem State.xresetTaken_i : (s.xresetTaken).i = 0 := rfl
@[simp] theorem State.xresetTaken_tmsBuf : (s.xresetTaken).tmsBuf = s.tmsBuf := rfl
@[simp] theorem State.xresetTaken_tdiBuf : (s.xresetTaken).tdiBuf = s.tdiBuf := rfl
@[simp] theorem State.xresetTaken_tdoBuf : (s.xresetTaken).tdoBuf = s.tdoBuf := rfl
@[simp] theorem State.xresetTaken_err : (s.xresetTaken).err = s.err := rfl
@[simp] theorem State.xresetTaken_tck : (s.xresetTaken).tck = s.tck := rfl
@[simp] theorem State.xresetTaken_tms : (s.xresetTaken).tms = s.tms := rfl
@[simp] theorem State.xresetTaken_tdi : (s.xresetTaken).tdi = s.tdi := rfl
@[simp] theorem State.xresetTaken_rxQ : (s.xresetTaken).rxQ = [] := rfl
@[simp] theorem State.xresetTaken_txQ : (s.xresetTaken).txQ = [] := rfl
@[simp] theorem State.xresetTaken_pinTrace : (s.xresetTaken).pinTrace = s.pinTrace := rfl
@[simp] theorem State.xresetTaken_target : (s.xresetTaken).target = s.target := rfl
@[simp] theorem State.xresetTaken_tdo : (s.xresetTaken).tdo = s.tdo := rfl
@[simp] theorem State.xresetTaken_session : (s.xresetTaken).session = s.session := rfl
@[simp] theorem State.xresetTaken_tcpIn : (s.xresetTaken).tcpIn = s.tcpIn := rfl
@[simp] theorem State.xresetTaken_tcpOut : (s.xresetTaken).tcpOut = s.tcpOut := rfl
@[simp] theorem State.xresetTaken_flight : (s.xresetTaken).flight = s.flight := rfl
@[simp] theorem State.xresetTaken_drain : (s.xresetTaken).drain = s.drain := rfl
@[simp] theorem State.xresetTaken_xresetHeld : (s.xresetTaken).xresetHeld = false := rfl
@[simp] theorem State.xresetTaken_hostLog : (s.xresetTaken).hostLog = s.hostLog := rfl
@[simp] theorem State.xresetTaken_cfg : (s.xresetTaken).cfg = s.cfg := rfl
@[simp] theorem State.xresetTaken_agenda : (s.xresetTaken).agenda = s.agenda := rfl
@[simp] theorem State.xresetTaken_result : (s.xresetTaken).result = s.result := rfl
@[simp] theorem State.xresetTaken_powerOns : (s.xresetTaken).powerOns = s.powerOns := rfl

/-! ### `State.teardown` -/

@[simp] theorem State.teardown_phase (e : HostError) : (s.teardown e).phase = s.phase := rfl
@[simp] theorem State.teardown_bitCount (e : HostError) : (s.teardown e).bitCount = s.bitCount := rfl
@[simp] theorem State.teardown_offset (e : HostError) : (s.teardown e).offset = s.offset := rfl
@[simp] theorem State.teardown_i (e : HostError) : (s.teardown e).i = s.i := rfl
@[simp] theorem State.teardown_tmsBuf (e : HostError) : (s.teardown e).tmsBuf = s.tmsBuf := rfl
@[simp] theorem State.teardown_tdiBuf (e : HostError) : (s.teardown e).tdiBuf = s.tdiBuf := rfl
@[simp] theorem State.teardown_tdoBuf (e : HostError) : (s.teardown e).tdoBuf = s.tdoBuf := rfl
@[simp] theorem State.teardown_err (e : HostError) : (s.teardown e).err = s.err := rfl
@[simp] theorem State.teardown_tck (e : HostError) : (s.teardown e).tck = s.tck := rfl
@[simp] theorem State.teardown_tms (e : HostError) : (s.teardown e).tms = s.tms := rfl
@[simp] theorem State.teardown_tdi (e : HostError) : (s.teardown e).tdi = s.tdi := rfl
@[simp] theorem State.teardown_rxQ (e : HostError) : (s.teardown e).rxQ = s.rxQ := rfl
@[simp] theorem State.teardown_txQ (e : HostError) : (s.teardown e).txQ = s.txQ := rfl
@[simp] theorem State.teardown_pinTrace (e : HostError) : (s.teardown e).pinTrace = s.pinTrace := rfl
@[simp] theorem State.teardown_target (e : HostError) : (s.teardown e).target = s.target := rfl
@[simp] theorem State.teardown_tdo (e : HostError) : (s.teardown e).tdo = s.tdo := rfl
@[simp] theorem State.teardown_session (e : HostError) : (s.teardown e).session = .tornDown := rfl
@[simp] theorem State.teardown_tcpIn (e : HostError) : (s.teardown e).tcpIn = [] := rfl
@[simp] theorem State.teardown_tcpOut (e : HostError) : (s.teardown e).tcpOut = s.tcpOut := rfl
@[simp] theorem State.teardown_flight (e : HostError) : (s.teardown e).flight = none := rfl
@[simp] theorem State.teardown_drain (e : HostError) : (s.teardown e).drain = 0 := rfl
@[simp] theorem State.teardown_xresetHeld (e : HostError) : (s.teardown e).xresetHeld = true := rfl
@[simp] theorem State.teardown_hostLog (e : HostError) : (s.teardown e).hostLog = s.hostLog ++ [e] := rfl
@[simp] theorem State.teardown_cfg (e : HostError) : (s.teardown e).cfg = s.cfg := rfl
@[simp] theorem State.teardown_agenda (e : HostError) : (s.teardown e).agenda = s.agenda := rfl
@[simp] theorem State.teardown_result (e : HostError) : (s.teardown e).result = s.result := rfl
@[simp] theorem State.teardown_powerOns (e : HostError) : (s.teardown e).powerOns = s.powerOns := rfl

end Sys2Proof.Machine
end

