-- ==== Sys2Proof/Laws/Exec.lean ====
section
/-! SUPPORT. What each operation can do if it answers a next state: its cases, once, for later proofs to cite. -/

namespace Sys2Proof.Machine

theorem headerBitCount_short {p : Packet} (h : p.length < 4) : headerBitCount p = none := by
  match p with
  | [] => rfl
  | [_] => rfl
  | [_, _] => rfl
  | [_, _, _] => rfl
  | _ :: _ :: _ :: _ :: _ => simp at h; omega

theorem headerBitCount_some {p : Packet} {n : Word32} (h : headerBitCount p = some n) :
    ∃ b0 b1 b2 b3 rest, p = b0 :: b1 :: b2 :: b3 :: rest ∧ n = unle32 b0 b1 b2 b3 := by
  match p with
  | [] => cases h
  | [_] => cases h
  | [_, _] => cases h
  | [_, _, _] => cases h
  | b0 :: b1 :: b2 :: b3 :: rest => cases h; exact ⟨b0, b1, b2, b3, rest, rfl, rfl⟩

/-- PKT.HEADER raises one of its two errors or accepts the header (R121). -/
theorem execPktHeader_next {p : Packet} {s t : State} (h : execPktHeader p s = .next t) :
    s.phase = .header ∧ (t = s.raise .shortHeader ∨ t = s.raise .capacity ∨
      ∃ n, headerBitCount p = some n ∧ byteCountOf n ≤ s.cfg.CAP ∧ t = s.acceptHeader n) := by
  unfold execPktHeader at h
  split at h
  · rename_i hp
    refine ⟨hp, ?_⟩
    split at h
    · cases h; exact .inl rfl
    · rename_i n hn
      split at h
      · cases h; exact .inr (.inl rfl)
      · rename_i hc
        cases h; exact .inr (.inr ⟨n, hn, Nat.not_lt.mp hc, rfl⟩)
  · cases h

/-- What a stored payload packet leaves before its exit is taken: `need` bytes at `offset` (R122, R123). -/
def State.stored (s : State) (b : BufId) (p : Packet) : State :=
  s.setBuf b ((s.buf b).pokeBytes s.offset (p.take s.need))

/-- A payload packet aborts the command, or is stored and completes its vector, or is stored and waits for more. -/
theorem payload_next {b : BufId} {done : State → State} {p : Packet} {s t : State} (h : s.payload b done p = .next t) :
    t = s.raise .shortPacket ∨
    (s.need ≤ p.length ∧ s.offset + s.need ≤ s.cfg.CAP ∧
      ((s.byteCount ≤ s.offset + s.cfg.C ∧ t = done { s.stored b p with offset := 0 }) ∨
       (s.offset + s.cfg.C < s.byteCount ∧ t = { s.stored b p with offset := s.offset + s.cfg.C }))) := by
  unfold State.payload at h
  split at h
  · cases h; exact .inl rfl
  · rename_i hb
    have hl : s.need ≤ p.length := by
      simp only [State.badPayload, Bool.or_eq_true, decide_eq_true_eq, not_or, Nat.not_lt] at hb
      exact hb.1
    split at h
    · cases h
    · rename_i hc
      split at h
      · rename_i he
        cases h; exact .inr ⟨hl, Nat.not_lt.mp hc, .inl ⟨he, rfl⟩⟩
      · rename_i he
        cases h; exact .inr ⟨hl, Nat.not_lt.mp hc, .inr ⟨Nat.not_le.mp he, rfl⟩⟩

theorem execPktTms_next {p : Packet} {s t : State} (h : execPktTms p s = .next t) :
    s.phase = .receiveTms ∧ s.payload .tms (fun t => { t with phase := .receiveTdi }) p = .next t := by
  unfold execPktTms at h
  split at h
  · rename_i hp; exact ⟨hp, h⟩
  · cases h

theorem execPktTdi_next {p : Packet} {s t : State} (h : execPktTdi p s = .next t) :
    s.phase = .receiveTdi ∧ s.payload .tdi (fun t => { t with i := 0, phase := .shift }) p = .next t := by
  unfold execPktTdi at h
  split at h
  · rename_i hp; exact ⟨hp, h⟩
  · cases h

/-- A cycle has five pin events. -/
theorem cycleUpTo_whole {s : State} {d m : Bit} {k : Nat} (h : 5 ≤ k) : s.cycleUpTo d m k = s.jtagCycle d m := by
  simp only [State.jtagCycle, State.cycleUpTo]
  rw [List.take_of_length_le (show (cyclePins d m).length ≤ k from h),
    List.take_of_length_le (show (cyclePins d m).length ≤ 5 from le_rfl)]

/-- What the first `k` pin events of a cycle do, all at once: TCK is low after the first, TDI and TMS are driven by the
next two, the fourth is the rising edge on which the Target answers, the fifth samples that answer (R56, R141). -/
theorem cycleUpTo_eq (s : State) (d m : Bit) (k : Nat) :
    s.cycleUpTo d m k = { s with
      tck := if 4 ≤ k then true else if 1 ≤ k then false else s.tck
      tdi := if 2 ≤ k then d else s.tdi
      tms := if 3 ≤ k then m else s.tms
      target := if 4 ≤ k then (s.target.apply m d).1 else s.target
      tdo := if 4 ≤ k then (s.target.apply m d).2 else s.tdo
      pinTrace := s.pinTrace ++ ([.write .tck false, .write .tdi d, .write .tms m, .write .tck true,
        .read (s.target.apply m d).2] : List PinEvent).take k } := by
  have five : ∀ k, 5 ≤ k → s.cycleUpTo d m k = s.cycleUpTo d m 5 := fun k h => cycleUpTo_whole h
  match k with
  | 0 => simp [State.cycleUpTo]
  | 1 => simp [State.cycleUpTo, cyclePins, State.pinWrite, State.risingEdge]
  | 2 => simp [State.cycleUpTo, cyclePins, State.pinWrite, State.risingEdge]
  | 3 => simp [State.cycleUpTo, cyclePins, State.pinWrite, State.risingEdge]
  | 4 => simp [State.cycleUpTo, cyclePins, State.pinWrite, State.risingEdge]
  | k + 5 =>
    rw [five (k + 5) (by omega)]
    simp [State.cycleUpTo, cyclePins, State.pinWrite, State.pinRead, State.risingEdge,
      show 2 ≤ k + 5 by omega, show 3 ≤ k + 5 by omega, show 4 ≤ k + 5 by omega]

/-- A cycle cut short changes no more than a cycle's pin events do. -/
theorem cutCycle_frame (s : State) (k : Nat) :
    s.cutCycle k = { s with
      tck := (s.cutCycle k).tck, tms := (s.cutCycle k).tms, tdi := (s.cutCycle k).tdi, tdo := (s.cutCycle k).tdo
      target := (s.cutCycle k).target, pinTrace := (s.cutCycle k).pinTrace } := by
  unfold State.cutCycle
  split
  · rw [cycleUpTo_eq]
  · rfl

/-- One JTAG cycle, all its effects at once (R141). -/
theorem jtagCycle_eq (s : State) (d m : Bit) :
    s.jtagCycle d m = { s with
      tck := true, tms := m, tdi := d, tdo := (s.target.apply m d).2, target := (s.target.apply m d).1
      pinTrace := s.pinTrace ++
        [.write .tck false, .write .tdi d, .write .tms m, .write .tck true, .read (s.target.apply m d).2] } := by
  rw [State.jtagCycle, cycleUpTo_eq]; rfl

/-- SHIFT.CYCLE does one thing (R141). -/
theorem execShiftCycle_next {s t : State} (h : execShiftCycle s = .next t) :
    s.phase = .shift ∧ s.i < s.bitCount.toNat ∧ s.i / 8 < s.cfg.CAP ∧
    t = { s.jtagCycle (s.tdiBuf.getBit s.i) (s.tmsBuf.getBit s.i) with
      tdoBuf := s.tdoBuf.setBit s.i (s.jtagSample (s.tdiBuf.getBit s.i) (s.tmsBuf.getBit s.i))
      i := s.i + 1 } := by
  unfold execShiftCycle at h
  split at h
  · rename_i hp
    split at h
    · cases h
    · rename_i hc
      cases h
      exact ⟨hp.1, hp.2, Nat.not_le.mp hc, rfl⟩
  · cases h

/-- SHIFT.RETURN does one thing (R143). -/
theorem execShiftReturn_next {s t : State} (h : execShiftReturn s = .next t) :
    s.phase = .shift ∧ s.i = s.bitCount.toNat ∧ s.byteCount ≤ s.cfg.CAP ∧
    t = { s with txQ := s.txQ ++ chunk s.cfg.C (s.tdoBuf.peekBytes s.byteCount), phase := .header } := by
  unfold execShiftReturn at h
  split at h
  · rename_i hp
    split at h
    · cases h
    · rename_i hc
      cases h
      exact ⟨hp.1, hp.2, Nat.not_lt.mp hc, rfl⟩
  · cases h

/-- XRESET is held in SHIFT and taken elsewhere (R201, R144). -/
theorem execXreset_next {s t : State} (h : execXreset s = .next t) :
    (s.phase = .shift ∧ t = { s with xresetHeld := true }) ∨ (s.phase ≠ .shift ∧ t = s.xresetTaken) := by
  unfold execXreset at h
  split at h
  · rename_i hp; cases h; exact .inl ⟨hp, rfl⟩
  · rename_i hp; cases h; exact .inr ⟨hp, rfl⟩

/-- A function call changes the caller's result alone. -/
theorem execGetBit_next {buf : List Byte} {k : Nat} {s t : State} (h : execGetBit buf k s = .next t) :
    t = { s with result := t.result } := by
  unfold execGetBit at h
  split at h
  · cases h; rfl
  · cases h

theorem execSetBit_next {buf : List Byte} {k : Nat} {v : Bit} {s t : State} (h : execSetBit buf k v s = .next t) :
    t = { s with result := t.result } := by
  unfold execSetBit at h
  split at h
  · cases h; rfl
  · cases h

/-- The Host's command in flight advances or is over, and nothing but its reply changes (R103, R107). -/
theorem hostAdvance_frame (s : State) (f : Flight) :
    s.hostAdvance f = { s with flight := (s.hostAdvance f).flight, tcpOut := (s.hostAdvance f).tcpOut } := by
  unfold State.hostAdvance
  split <;> rfl

theorem hostAdvance_unsent {s : State} {f : Flight} (h : f.unsent ≠ []) :
    s.hostAdvance f = { s with flight := some f } := if_neg fun hc => h hc.1

theorem hostAdvance_more {s : State} {f : Flight} (h : f.tdo.length < byteCountOf f.bitCount) :
    s.hostAdvance f = { s with flight := some f } := if_neg fun hc => Nat.not_le.mpr h hc.2

theorem hostAdvance_done {s : State} {f : Flight} (hu : f.unsent = []) (h : byteCountOf f.bitCount ≤ f.tdo.length) :
    s.hostAdvance f = { s with flight := none, tcpOut := s.tcpOut ++ f.tdo } := if_pos ⟨hu, h⟩

theorem hostAdvance_flight {s : State} {f g : Flight} (h : (s.hostAdvance f).flight = some g) :
    g = f ∧ (f.unsent = [] → f.tdo.length < byteCountOf f.bitCount) := by
  unfold State.hostAdvance at h
  split at h
  · cases h
  · rename_i hl; cases h; exact ⟨rfl, fun hu => Nat.not_le.mp fun hc => hl ⟨hu, hc⟩⟩

/-- HOST.SHIFT rejects its command or has it in flight, to be sent (R103, R108). -/
theorem execHostShift_next {n : Word32} {a b : List Byte} {s t : State} (h : execHostShift n a b s = .next t) :
    s.hostReady = true ∧ ((s.cfg.CAP < byteCountOf n ∧ t = s.hostReject n) ∨
      (byteCountOf n ≤ s.cfg.CAP ∧ t = { s with flight := some ⟨n, a, b, commandPackets s.cfg.C n a b, []⟩ })) := by
  unfold execHostShift at h
  split at h
  · rename_i hr
    refine ⟨hr, ?_⟩
    split at h
    · rename_i hc; cases h; exact .inl ⟨hc, rfl⟩
    · rename_i hc; cases h; exact .inr ⟨Nat.not_lt.mp hc, rfl⟩
  · cases h

/-- A rejected command changes the Host alone (R108). -/
theorem hostReject_frame (s : State) (n : Word32) :
    s.hostReject n = { s with
      session := (s.hostReject n).session, tcpIn := (s.hostReject n).tcpIn, flight := (s.hostReject n).flight
      drain := (s.hostReject n).drain, xresetHeld := (s.hostReject n).xresetHeld
      hostLog := (s.hostReject n).hostLog } := by
  unfold State.hostReject
  split <;> rfl

theorem hostReject_flight (s : State) (n : Word32) :
    (s.hostReject n).flight = none ∨ (s.hostReject n).flight = s.flight := by
  unfold State.hostReject
  split
  · exact .inl rfl
  · exact .inr rfl

theorem execHostGetinfo_next {s t : State} (h : execHostGetinfo s = .next t) :
    s.hostReady = true ∧ t = { s with tcpOut := t.tcpOut } := by
  unfold execHostGetinfo at h
  split at h
  · rename_i hr; cases h; exact ⟨hr, rfl⟩
  · cases h

theorem execHostSettck_next {n : Word32} {s t : State} (h : execHostSettck n s = .next t) :
    s.hostReady = true ∧ t = { s with tcpOut := t.tcpOut } := by
  unfold execHostSettck at h
  split at h
  · rename_i hr; cases h; exact ⟨hr, rfl⟩
  · cases h

theorem execHostUnknown_next {bs : List Byte} {s t : State} (h : execHostUnknown bs s = .next t) :
    s.hostReady = true ∧ t = { s with tcpIn := t.tcpIn, hostLog := t.hostLog } := by
  unfold execHostUnknown at h
  split at h
  · rename_i hr; cases h; exact ⟨hr, rfl⟩
  · cases h

end Sys2Proof.Machine
end

