-- ==== Sys2Proof/Laws/PerInstr.lean ====
section
/-! SUPPORT. Statements made once per operation, with one lemma for each row of the opcode table. -/

namespace Sys2Proof.Laws.EncodedEvent

/-- The event an operation is encoded as is of the kind the `selector` entry of its row in spec/opcode_table.json
names, in the Engine state that entry names (R70, R7). -/
def Statement : Instr → Prop
  | .pktHeader p => encode (.pktHeader p) = (⟨.header, 0, 0⟩, .packetIn p)
  | .pktTms p => encode (.pktTms p) = (⟨.receiveTms, 0, 0⟩, .packetIn p)
  | .pktTdi p => encode (.pktTdi p) = (⟨.receiveTdi, 0, 0⟩, .packetIn p)
  | .shiftCycle => (encode .shiftCycle).2 = .internal ∧ (encode .shiftCycle).1.phase = .shift ∧
      (encode .shiftCycle).1.i < (encode .shiftCycle).1.bitCount.toNat
  | .shiftReturn => (encode .shiftReturn).2 = .internal ∧ (encode .shiftReturn).1.phase = .shift ∧
      (encode .shiftReturn).1.i = (encode .shiftReturn).1.bitCount.toNat
  | .xreset => (encode .xreset).2 = .xreset
  | .por => (encode .por).2 = .por
  | .byteCount n => (encode (.byteCount n)).2 = .call (.byteCount n)
  | .getBit buf k => (encode (.getBit buf k)).2 = .call (.getBit buf k)
  | .setBit buf k v => (encode (.setBit buf k v)).2 = .call (.setBit buf k v)
  | .chunk v => (encode (.chunk v)).2 = .call (.chunk v)
  | .reassemble ps => (encode (.reassemble ps)).2 = .call (.reassemble ps)
  | .hostGetinfo => (encode .hostGetinfo).2 = .tcp getinfoText
  | .hostSettck period => (encode (.hostSettck period)).2 = .tcp (settckText ++ le32 period)
  | .hostShift n tms tdi => (encode (.hostShift n tms tdi)).2 = .tcp (shiftText ++ le32 n ++ tms ++ tdi)
  | .hostUnknown seen => (encode (.hostUnknown seen)).2 = .tcp seen
  | .shiftcmd n tms tdi => (encode (.shiftcmd n tms tdi)).2 = .call (.shiftcmd n tms tdi)

theorem pktHeader (p : Packet) : Statement (.pktHeader p) := rfl

theorem pktTms (p : Packet) : Statement (.pktTms p) := rfl

theorem pktTdi (p : Packet) : Statement (.pktTdi p) := rfl

theorem shiftCycle : Statement .shiftCycle := ⟨rfl, rfl, by decide⟩

theorem shiftReturn : Statement .shiftReturn := ⟨rfl, rfl, by decide⟩

theorem xreset : Statement .xreset := rfl

theorem por : Statement .por := rfl

theorem byteCount (n : Word32) : Statement (.byteCount n) := rfl

theorem getBit (buf : List Byte) (k : Nat) : Statement (.getBit buf k) := rfl

theorem setBit (buf : List Byte) (k : Nat) (v : Bit) : Statement (.setBit buf k v) := rfl

theorem chunk (v : List Byte) : Statement (.chunk v) := rfl

theorem reassemble (ps : List Packet) : Statement (.reassemble ps) := rfl

theorem hostGetinfo : Statement .hostGetinfo := rfl

theorem hostSettck (period : Word32) : Statement (.hostSettck period) := rfl

theorem hostShift (n : Word32) (tms : List Byte) (tdi : List Byte) : Statement (.hostShift n tms tdi) := rfl

theorem hostUnknown (seen : List Byte) : Statement (.hostUnknown seen) := rfl

theorem shiftcmd (n : Word32) (tms : List Byte) (tdi : List Byte) : Statement (.shiftcmd n tms tdi) := rfl

end Sys2Proof.Laws.EncodedEvent
end

