-- ==== Sys2Proof/Laws/Step.lean ====
section
/-! SUPPORT. What one step can do: which operation it selects on which state, and which moves are no operation. Later proofs cite these and do not unfold the step. -/

namespace Sys2Proof.Machine

/-- What the selection of operation `i` on state `u` says of the state `s` it was selected in: the trigger of its row,
and that only the schedule, the packet consumed or the bytes read differ, or, before a power-on, the pin events of a cycle
it cuts short (R70, R120, R140, R200). -/
def Selected (s u : State) : Instr → Prop
  | .pktHeader p => s.phase = .header ∧ s.rxQ = p :: u.rxQ ∧ p.length ≤ s.cfg.C ∧
      u = { s with agenda := u.agenda, rxQ := u.rxQ }
  | .pktTms p => s.phase = .receiveTms ∧ s.rxQ = p :: u.rxQ ∧ p.length ≤ s.cfg.C ∧
      u = { s with agenda := u.agenda, rxQ := u.rxQ }
  | .pktTdi p => s.phase = .receiveTdi ∧ s.rxQ = p :: u.rxQ ∧ p.length ≤ s.cfg.C ∧
      u = { s with agenda := u.agenda, rxQ := u.rxQ }
  | .shiftCycle => s.phase = .shift ∧ s.i < s.bitCount.toNat ∧ u = { s with agenda := u.agenda }
  | .shiftReturn => s.phase = .shift ∧ s.i = s.bitCount.toNat ∧ u = { s with agenda := u.agenda }
  | .xreset => u = { s with agenda := u.agenda }
  | .por => u = { s with
      agenda := u.agenda, tck := u.tck, tms := u.tms, tdi := u.tdi, tdo := u.tdo, target := u.target
      pinTrace := u.pinTrace }
  | .byteCount _ => u = { s with agenda := u.agenda }
  | .getBit _ _ => u = { s with agenda := u.agenda }
  | .setBit _ _ _ => u = { s with agenda := u.agenda }
  | .chunk _ => u = { s with agenda := u.agenda }
  | .reassemble _ => u = { s with agenda := u.agenda }
  | .shiftcmd _ _ _ => u = { s with agenda := u.agenda }
  | .hostGetinfo => s.hostReady = true ∧ u = { s with agenda := u.agenda, tcpIn := u.tcpIn }
  | .hostSettck _ => s.hostReady = true ∧ u = { s with agenda := u.agenda, tcpIn := u.tcpIn }
  | .hostShift _ _ _ => s.hostReady = true ∧ u = { s with agenda := u.agenda, tcpIn := u.tcpIn }
  | .hostUnknown _ => s.hostReady = true ∧ u = { s with agenda := u.agenda, tcpIn := u.tcpIn }

/-- What a move that is no operation can do: it touches the schedule, the queues and the Host, never the Engine, the pins,
the Target or the parameters; an inbound packet it adds fits the transport or is one the command in flight had to send;
what it leaves outbound is what was there or the rest of its first packet; and a command in flight stays the same one with
fewer packets to send or more of its response, or is over. -/
structure Moved (s t : State) : Prop where
  frame : t = { s with
    agenda := t.agenda, rxQ := t.rxQ, txQ := t.txQ, session := t.session, tcpIn := t.tcpIn, tcpOut := t.tcpOut
    flight := t.flight, drain := t.drain, xresetHeld := t.xresetHeld, hostLog := t.hostLog }
  inbound : t.rxQ = s.rxQ ∨ ∃ p, (p.length ≤ s.cfg.C ∨ ∃ f, s.flight = some f ∧ p ∈ f.unsent) ∧ t.rxQ = s.rxQ ++ [p]
  outbound : ∀ q ∈ t.txQ, q ∈ s.txQ ∨ ∃ p ∈ s.txQ, ∃ k, k < p.length ∧ q = p.drop k
  inFlight : ∀ f, t.flight = some f → s.flight = some f ∨
    ∃ g, s.flight = some g ∧ f.bitCount = g.bitCount ∧ (∀ p ∈ f.unsent, p ∈ g.unsent) ∧
      (f.unsent = [] → f.tdo.length < byteCountOf f.bitCount)

theorem Moved.of_host {s t : State}
    (frame : t = { s with
      agenda := t.agenda, session := t.session, tcpIn := t.tcpIn, tcpOut := t.tcpOut
      flight := t.flight, drain := t.drain, xresetHeld := t.xresetHeld, hostLog := t.hostLog })
    (inFlight : t.flight = s.flight ∨ t.flight = none) : Moved s t := by
  have hr : t.rxQ = s.rxQ := by rw [frame]
  have ht : t.txQ = s.txQ := by rw [frame]
  refine ⟨?_, .inl hr, fun q hq => .inl (ht ▸ hq), fun f hf => ?_⟩
  · rw [hr, ht]; exact frame
  · rcases inFlight with h | h
    · exact .inl (h ▸ hf)
    · rw [h] at hf; cases hf

theorem hostReady_iff (s : State) :
    s.hostReady = true ↔ s.session = .opened ∧ s.flight = none ∧ s.drain = 0 ∧ s.xresetHeld = false := by
  simp [State.hostReady, and_assoc]

theorem moved_hostCollect {s : State} {f : Flight} {q : Packet} {qs : List Packet} (hf : s.flight = some f)
    (hq : s.txQ = q :: qs) : Moved s (s.hostCollect f q qs) := by
  have ho : ∀ x ∈ (if q.length ≤ byteCountOf f.bitCount - f.tdo.length then qs
      else q.drop (byteCountOf f.bitCount - f.tdo.length) :: qs),
      x ∈ s.txQ ∨ ∃ p ∈ s.txQ, ∃ k, k < p.length ∧ x = p.drop k := by
    intro x hx
    split at hx
    · exact .inl (hq ▸ List.mem_cons_of_mem _ hx)
    · rename_i hl
      rcases List.mem_cons.mp hx with rfl | hx
      · exact .inr ⟨q, by simp [hq], _, Nat.not_le.mp hl, rfl⟩
      · exact .inl (hq ▸ List.mem_cons_of_mem _ hx)
  simp only [State.hostCollect, State.hostAdvance]
  split
  · exact ⟨rfl, .inl rfl, ho, fun g hg => by cases hg⟩
  · rename_i hl
    refine ⟨rfl, .inl rfl, ho, fun g hg => .inr ⟨f, hf, ?_⟩⟩
    cases hg
    exact ⟨rfl, fun p hp => hp, fun hu => Nat.not_le.mp fun hc => hl ⟨hu, hc⟩⟩

theorem moved_hostSend {s : State} {f : Flight} {p : Packet} {ps : List Packet} (hf : s.flight = some f)
    (hu : f.unsent = p :: ps) : Moved s (s.hostSend f p ps) := by
  have hp : s.rxQ ++ [p] = s.rxQ ∨ ∃ q, (q.length ≤ s.cfg.C ∨ ∃ f, s.flight = some f ∧ q ∈ f.unsent) ∧
      s.rxQ ++ [p] = s.rxQ ++ [q] := .inr ⟨p, .inr ⟨f, hf, by simp [hu]⟩, rfl⟩
  simp only [State.hostSend, State.hostAdvance, State.sendPackets]
  split
  · exact ⟨rfl, hp, fun q hq => .inl hq, fun g hg => by cases hg⟩
  · rename_i hl
    refine ⟨rfl, hp, fun q hq => .inl hq, fun g hg => .inr ⟨f, hf, ?_⟩⟩
    cases hg
    exact ⟨rfl, fun q hq => hu ▸ List.mem_cons_of_mem _ hq, fun hs => Nat.not_le.mp fun hc => hl ⟨hs, hc⟩⟩

/-- The Engine's move is the operation its state selects, or nothing, or a refusal of a packet no transport carries. -/
theorem engineMove_run {s u : State} {i : Instr} (h : engineMove s = some (.run i u)) : Selected s u i := by
  unfold engineMove at h
  split at h
  · rename_i hp
    simp only [decode, decodeInternal, State.control, hp, if_true] at h
    by_cases h1 : s.i < s.bitCount.toNat
    · simp only [h1, if_true, Except.map, Option.some.injEq, Fetched.run.injEq] at h
      obtain ⟨rfl, rfl⟩ := h
      exact ⟨hp, h1, rfl⟩
    · by_cases h2 : s.i = s.bitCount.toNat
      · simp only [h2, if_true, if_false, Except.map, Option.some.injEq, Fetched.run.injEq, Nat.lt_irrefl] at h
        obtain ⟨rfl, rfl⟩ := h
        exact ⟨hp, h2, rfl⟩
      · simp [h1, h2, Except.map] at h
  · split at h
    · simp only [Option.some.injEq, Fetched.run.injEq] at h
      obtain ⟨rfl, rfl⟩ := h
      exact rfl
    · split at h
      · cases h
      · rename_i p ps hr
        simp only [decode, decodePacket, State.control] at h
        by_cases hl : s.cfg.C < p.length
        · simp [hl, Except.map] at h
        · simp only [hl, if_false] at h
          cases hp : s.phase <;> simp [hp, Except.map] at h
          all_goals
            obtain ⟨rfl, rfl⟩ := h
            exact ⟨hp, hr, Nat.not_lt.mp hl, by simp only [hp]⟩

theorem engineMove_not_move {s t : State} : engineMove s ≠ some (.move t) := by
  unfold engineMove
  repeat' split
  all_goals simp

theorem engineMove_not_stop {s : State} {f : Fault} : engineMove s ≠ some (.stop f) := by
  unfold engineMove
  repeat' split
  all_goals simp

theorem decodeSettck_host {bs rest : List Byte} {i : Instr} (h : decodeSettck bs = .ok (i, rest)) :
    ∃ n, i = .hostSettck n := by
  unfold decodeSettck at h
  split at h
  · cases h; exact ⟨_, rfl⟩
  · cases h

theorem decodeShift_host {cap : Nat} {bs rest : List Byte} {i : Instr} (h : decodeShift cap bs = .ok (i, rest)) :
    ∃ n a b, i = .hostShift n a b := by
  unfold decodeShift at h
  split at h
  · simp only at h
    split at h
    · cases h; exact ⟨_, _, _, rfl⟩
    · split at h
      · cases h
      · cases h; exact ⟨_, _, _, rfl⟩
  · cases h

/-- The stream decodes to Host commands only. -/
theorem decodeTcp_host {cap : Nat} {stream rest : List Byte} {i : Instr} (h : decodeTcp cap stream = .ok (i, rest)) :
    i = .hostGetinfo ∨ (∃ n, i = .hostSettck n) ∨ (∃ n a b, i = .hostShift n a b) ∨ ∃ bs, i = .hostUnknown bs := by
  unfold decodeTcp at h
  split at h
  · cases h; exact .inl rfl
  · split at h
    · exact .inr (.inl (decodeSettck_host h))
    · split at h
      · exact .inr (.inr (.inl (decodeShift_host h)))
      · split at h
        · cases h; exact .inr (.inr (.inr ⟨_, rfl⟩))
        · cases h

theorem hostMove_run {s u : State} {i : Instr} (h : hostMove s = some (.run i u)) : Selected s u i := by
  unfold hostMove at h
  split at h
  · cases h
  · rename_i ho
    have ho : s.session = .opened := by cases hs : s.session <;> simp_all
    cases hf : s.flight with
    | some f => cases hu : f.unsent <;> cases hq : s.txQ <;> simp [hf, hu, hq] at h
    | none =>
      simp only [hf] at h
      by_cases hd : s.drain = 0
      · simp only [hd, ne_eq, not_true_eq_false, if_false] at h
        split at h
        · cases h
        · rename_i hx
          have hr : s.hostReady = true := (hostReady_iff s).mpr ⟨ho, hf, hd, by simpa using hx⟩
          simp only [decode] at h
          split at h
          · rename_i j rest hdec
            simp only [Option.some.injEq, Fetched.run.injEq] at h
            obtain ⟨rfl, rfl⟩ := h
            rcases decodeTcp_host hdec with rfl | ⟨n, rfl⟩ | ⟨n, a, b, rfl⟩ | ⟨bs, rfl⟩
            all_goals exact ⟨hr, by simp only [hf, hd]⟩
          · cases h
      · simp only [ne_eq, hd, not_false_eq_true, if_true] at h
        split at h <;> simp at h

theorem hostMove_move {s t : State} (h : hostMove s = some (.move t)) : Moved s t := by
  unfold hostMove at h
  split at h
  · cases h
  · cases hf : s.flight with
    | some f =>
      cases hu : f.unsent with
      | cons p ps =>
        simp only [hf, hu, Option.some.injEq, Fetched.move.injEq] at h
        subst h
        exact moved_hostSend hf hu
      | nil =>
        cases hq : s.txQ with
        | nil => simp [hf, hu, hq] at h
        | cons q qs =>
          simp only [hf, hu, hq, Option.some.injEq, Fetched.move.injEq] at h
          subst h
          exact moved_hostCollect hf hq
    | none =>
      simp only [hf] at h
      split at h
      · split at h
        · cases h
        · simp only [Option.some.injEq, Fetched.move.injEq] at h
          subst h
          exact .of_host rfl (.inl rfl)
      · split at h
        · cases h
        · split at h <;> simp at h

theorem hostMove_not_stop {s : State} {f : Fault} : hostMove s ≠ some (.stop f) := by
  unfold hostMove
  repeat' split
  all_goals simp

/-- An operation selected with the schedule already advanced is selected in the state itself. -/
theorem Selected.of_agenda {s u : State} {i : Instr} {a : List Turn} (h : Selected { s with agenda := a } u i) :
    Selected s u i := by
  cases i <;> exact h

theorem Moved.of_agenda {s t : State} {a : List Turn} (h : Moved { s with agenda := a } t) : Moved s t :=
  ⟨h.frame, h.inbound, h.outbound, h.inFlight⟩

theorem moved_agenda (s : State) (a : List Turn) : Moved s { s with agenda := a } := .of_host rfl (.inl rfl)

theorem autoMove_run {s u : State} {i : Instr} (h : autoMove s = some (.run i u)) : Selected s u i := by
  unfold autoMove at h
  split at h
  · rename_i m hm
    cases h
    exact engineMove_run hm
  · exact hostMove_run h

theorem autoMove_move {s t : State} (h : autoMove s = some (.move t)) : Moved s t := by
  unfold autoMove at h
  split at h
  · rename_i m hm
    cases h
    exact absurd hm engineMove_not_move
  · exact hostMove_move h

theorem autoMove_not_stop {s : State} {f : Fault} : autoMove s ≠ some (.stop f) := by
  unfold autoMove
  split
  · rename_i m hm
    rintro h
    cases h
    exact engineMove_not_stop hm
  · exact hostMove_not_stop

/-- A call is selected with only the schedule advanced. -/
theorem selected_call (s : State) (c : Call) (a : List Turn) : Selected s { s with agenda := a } (decodeCall c) := by
  cases c <;> exact rfl

/-- The operation a step runs is one whose trigger holds, on the state from which what carries it has been taken. -/
theorem fetch_run {s u : State} {i : Instr} (h : fetch s = .run i u) : Selected s u i := by
  unfold fetch at h
  split at h
  · cases hm : autoMove s with
    | none =>
      simp only [hm, Option.getD_none, idle] at h
      split at h <;> cases h
    | some m =>
      simp only [hm, Option.getD_some] at h
      subst h
      exact autoMove_run hm
  · rename_i t rest ha
    cases t <;> simp only [takeTurn] at h
    case engine =>
      cases hm : engineMove { s with agenda := rest } with
      | none => simp [hm] at h
      | some m =>
        simp only [hm, Option.getD_some] at h
        subst h
        exact (engineMove_run hm).of_agenda
    case host =>
      cases hm : hostMove { s with agenda := rest } with
      | none => simp [hm] at h
      | some m =>
        simp only [hm, Option.getD_some] at h
        subst h
        exact (hostMove_run hm).of_agenda
    case settle =>
      cases hm : autoMove s with
      | none => simp [hm] at h
      | some m =>
        simp only [hm, Option.getD_some] at h
        subst h
        exact autoMove_run hm
    case send p => split at h <;> cases h
    case call c =>
      simp only [Fetched.run.injEq] at h
      obtain ⟨rfl, rfl⟩ := h
      exact selected_call s c rest
    case por => cases h; exact rfl
    case porDuring k =>
      cases h
      have := cutCycle_frame { s with agenda := rest } k
      simp only [Selected]
      rw [this]
    case xreset => cases h; exact rfl
    all_goals cases h

theorem moved_timeout (s : State) : Moved s s.transportTimeout := by
  unfold State.transportTimeout
  split
  · exact .of_host rfl (.inr rfl)
  · exact .of_host rfl (.inl rfl)

/-- What a step that is no operation can do. -/
theorem fetch_move {s t : State} (h : fetch s = .move t) : Moved s t := by
  unfold fetch at h
  split at h
  · cases hm : autoMove s with
    | none =>
      simp only [hm, Option.getD_none, idle] at h
      split at h
      · cases h; exact moved_timeout s
      · cases h
    | some m =>
      simp only [hm, Option.getD_some] at h
      subst h
      exact autoMove_move hm
  · rename_i tn rest ha
    cases tn <;> simp only [takeTurn] at h
    case engine =>
      cases hm : engineMove { s with agenda := rest } with
      | none => simp only [hm, Option.getD_none] at h; cases h; exact moved_agenda s rest
      | some m =>
        simp only [hm, Option.getD_some] at h
        subst h
        exact absurd hm engineMove_not_move
    case host =>
      cases hm : hostMove { s with agenda := rest } with
      | none => simp only [hm, Option.getD_none] at h; cases h; exact moved_agenda s rest
      | some m =>
        simp only [hm, Option.getD_some] at h
        subst h
        exact (hostMove_move hm).of_agenda
    case settle =>
      cases hm : autoMove s with
      | none => simp only [hm, Option.getD_none] at h; cases h; exact moved_agenda s rest
      | some m =>
        simp only [hm, Option.getD_some] at h
        subst h
        exact autoMove_move hm
    case send p =>
      split at h
      · cases h
      · rename_i hl
        cases h
        exact ⟨rfl, .inr ⟨p, .inl (Nat.not_lt.mp hl), rfl⟩, fun q hq => .inl hq, fun f hf => .inl hf⟩
    case tcp bs =>
      cases h
      unfold State.tcpArrive
      split <;> exact .of_host rfl (.inl rfl)
    case connect =>
      cases h
      unfold State.connect
      split <;> exact .of_host rfl (.inl rfl)
    case tcpClosed =>
      cases h
      unfold State.connectionLost
      split
      · exact .of_host rfl (.inr rfl)
      · exact .of_host rfl (.inl rfl)
    case ioFailure =>
      cases h
      unfold State.connectionLost
      split
      · exact .of_host rfl (.inr rfl)
      · exact .of_host rfl (.inl rfl)
    case timeout => cases h; exact (moved_timeout { s with agenda := rest }).of_agenda
    case takeOut =>
      cases h
      exact ⟨rfl, .inl rfl, fun q hq => .inl (List.mem_of_mem_tail hq), fun f hf => .inl hf⟩
    case takeTcp n => cases h; exact .of_host rfl (.inl rfl)
    all_goals cases h

/-- Everything a step that answers a next state can do: run an operation whose trigger holds, or move. -/
theorem step_next {s t : State} (h : step s = .next t) :
    (∃ i u, Selected s u i ∧ i.wf u.cfg = true ∧ exec i u = .next t) ∨ Moved s t := by
  unfold step at h
  split at h
  · rename_i i u hf
    split at h
    · rename_i hw
      exact .inl ⟨i, u, fetch_run hf, hw, h⟩
    · cases h
  · rename_i u hf
    cases h
    exact .inr (fetch_move hf)
  · cases h
  · cases h

/-! ### Runs -/

/-- A run of one more step goes on from the state its first step leaves. -/
theorem run_next {s t : State} (k : Nat) (h : step s = .next t) : core.run (k + 1) s = core.run k t := by
  have general : ∀ (M : Host.Core) (a b : M.State), M.step a = .next b → M.run (k + 1) a = M.run k b := by
    intro M a b h
    simp [Host.Core.run, h]
  exact general core s t h

/-- A run that gets somewhere starts with a step that does. -/
theorem step_of_run {s t : State} {k : Nat} (h : core.run (k + 1) s = .next t) : ∃ u, step s = .next u := by
  cases e : step s with
  | next u => exact ⟨u, rfl⟩
  | fault f =>
    have : core.step s = .fault f := e
    simp [Host.Core.run, this] at h
  | refused r =>
    have : core.step s = .refused r := e
    simp [Host.Core.run, this] at h

/-- A run goes on from where a shorter one has led. -/
theorem run_append {s t : State} (k m : Nat) (h : core.run k s = .next t) : core.run (k + m) s = core.run m t := by
  induction k generalizing s with
  | zero => cases h; rw [Nat.zero_add]
  | succ k ih =>
    obtain ⟨u, hu⟩ := step_of_run h
    rw [run_next k hu] at h
    rw [show k + 1 + m = (k + m) + 1 by omega, run_next (k + m) hu]
    exact ih h

end Sys2Proof.Machine
end

