-- ==== Sys2Proof/Tests/Slice0.lean ====
section
/-! SUPPORT. Tests: ill-formed terms, encodings written out from the spec, single steps with results from the spec's
vectors, and for every statement of Obligations.lean a state and operands that meet its hypotheses. -/

namespace Sys2Proof.Tests

open Sys2Proof.Machine

/-! ### Helpers -/

/-- The outcome is a next state of which `p` holds. -/
def answers (o : Host.Outcome State Fault Refusal) (p : State → Bool) : Bool :=
  match o with
  | .next t => p t
  | .fault _ => false
  | .refused _ => false

/-- The outcome is this fault. -/
def faults (o : Host.Outcome State Fault Refusal) (f : Fault) : Bool :=
  match o with
  | .next _ => false
  | .fault g => decide (g = f)
  | .refused _ => false

theorem of_answers {o : Host.Outcome State Fault Refusal} {p : State → Bool} (h : answers o p = true) :
    ∃ t, o = .next t ∧ p t = true := by
  cases o with
  | next t => exact ⟨t, rfl, h⟩
  | fault _ => cases h
  | refused _ => cases h

theorem of_faults {o : Host.Outcome State Fault Refusal} {f : Fault} (h : faults o f = true) : o = .fault f := by
  cases o with
  | next _ => cases h
  | fault g => rw [of_decide_eq_true h]
  | refused _ => cases h

/-- A buffer that holds these bytes and zeros beyond. -/
def holding (bs : List Byte) : Memory := Memory.zeroed.pokeBytes 0 bs

/-- An Engine with the reference parameters, past an accepted header: zeroed buffers, latches low, TDO always 1. -/
def engine : State :=
  { State.reset with
    tmsBuf := Memory.zeroed, tdiBuf := Memory.zeroed, tdoBuf := Memory.zeroed
    tck := false, tms := false, tdi := false, tdo := false, target := .one }

/-- The same with packets of 4 bytes and buffers of 8. -/
def small : State := { engine with cfg := ⟨4, 8, .ignore, .teardown, 2048⟩ }

/-- The same where over-long packets are errors and the Host drains rejected commands. -/
def strict : State := { engine with cfg := ⟨4, 8, .error, .drainAndContinue, 2048⟩ }

/-! ### WellFormed: each check refuses an ill-formed term -/

theorem test_wf_packet_too_long :
    (Instr.pktHeader [0, 0, 0, 0, 0]).wf small.cfg = false ∧ (Instr.pktTms [0, 0, 0, 0, 0]).wf small.cfg = false ∧
    (Instr.pktTdi [0, 0, 0, 0, 0]).wf small.cfg = false ∧ (Instr.pktTdi [0, 0, 0, 0]).wf small.cfg = true := by decide

theorem test_wf_bit_index :
    (Instr.getBit [0] 8).wf small.cfg = false ∧ (Instr.getBit [0] 7).wf small.cfg = true ∧
    (Instr.setBit [] 0 true).wf small.cfg = false := by decide

theorem test_wf_reassemble : (Instr.reassemble [[1], [0, 0, 0, 0, 0]]).wf small.cfg = false := by decide

theorem test_wf_vector_lengths :
    (Instr.hostShift 9 [0] [0, 0]).wf small.cfg = false ∧ (Instr.hostShift 9 [0, 0] [0]).wf small.cfg = false ∧
    (Instr.hostShift 9 [0, 0] [0, 0]).wf small.cfg = true ∧ (Instr.hostShift 65 [0] []).wf small.cfg = false ∧
    (Instr.hostShift 65 [] []).wf small.cfg = true := by decide

theorem test_wf_shiftcmd :
    (Instr.shiftcmd 1 [] [0]).wf small.cfg = false ∧ (Instr.shiftcmd 1 [0] []).wf small.cfg = false ∧
    (Instr.shiftcmd 1 [0] [0]).wf small.cfg = true := by decide

/-- `shift` may still become a command, `Shift` may not (R104). -/
theorem test_wf_unknown :
    (Instr.hostUnknown [0x73, 0x68]).wf small.cfg = false ∧ (Instr.hostUnknown [0x53, 0x68]).wf small.cfg = true := by
  decide

/-! ### Decode: encodings written out from 30_encoding.md and the opcode table's selectors, one for every row -/

/-- R71, V5-4: a packet in `HEADER` is a header packet, whatever its bytes. -/
theorem test_decode_pktHeader :
    decode Config.reference ⟨.header, 77, 5⟩ (.packetIn [0x08, 0, 0, 0, 9]) = .ok (.pktHeader [0x08, 0, 0, 0, 9], []) :=
  rfl

/-- R72, V6-1. -/
theorem test_decode_pktTms :
    decode Config.reference ⟨.receiveTms, 16, 0⟩ (.packetIn [0, 0]) = .ok (.pktTms [0, 0], []) := rfl

/-- R72, V6-2. -/
theorem test_decode_pktTdi :
    decode Config.reference ⟨.receiveTdi, 16, 0⟩ (.packetIn [0xFF, 0]) = .ok (.pktTdi [0xFF, 0], []) := rfl

/-- R140: `i < bit_count`. -/
theorem test_decode_shiftCycle : decode Config.reference ⟨.shift, 16, 15⟩ .internal = .ok (.shiftCycle, []) := rfl

/-- R140: `i = bit_count`. -/
theorem test_decode_shiftReturn : decode Config.reference ⟨.shift, 16, 16⟩ .internal = .ok (.shiftReturn, []) := rfl

theorem test_decode_resets :
    decode Config.reference ⟨.receiveTms, 16, 0⟩ .xreset = .ok (.xreset, []) ∧
    decode Config.reference ⟨.shift, 16, 0⟩ .por = .ok (.por, []) := ⟨rfl, rfl⟩

theorem test_decode_calls :
    decode Config.reference ⟨.header, 0, 0⟩ (.call (.byteCount 13)) = .ok (.byteCount 13, []) ∧
    decode Config.reference ⟨.header, 0, 0⟩ (.call (.getBit [0xA5, 1] 9)) = .ok (.getBit [0xA5, 1] 9, []) ∧
    decode Config.reference ⟨.header, 0, 0⟩ (.call (.setBit [0] 3 true)) = .ok (.setBit [0] 3 true, []) ∧
    decode Config.reference ⟨.header, 0, 0⟩ (.call (.chunk [1])) = .ok (.chunk [1], []) ∧
    decode Config.reference ⟨.header, 0, 0⟩ (.call (.reassemble [[1], [2]])) = .ok (.reassemble [[1], [2]], []) ∧
    decode Config.reference ⟨.header, 0, 0⟩ (.call (.shiftcmd 1 [1] [0])) = .ok (.shiftcmd 1 [1] [0], []) :=
  ⟨rfl, rfl, rfl, rfl, rfl, rfl⟩

/-- R78, X5: `getinfo:`, with the byte after it left over. -/
theorem test_decode_hostGetinfo :
    decode Config.reference ⟨.header, 0, 0⟩ (.tcp [0x67, 0x65, 0x74, 0x69, 0x6E, 0x66, 0x6F, 0x3A, 0x73]) =
      .ok (.hostGetinfo, [0x73]) := rfl

/-- R78, X6: `settck:` 10 27 00 00 is 10000. -/
theorem test_decode_hostSettck :
    decode Config.reference ⟨.header, 0, 0⟩ (.tcp [0x73, 0x65, 0x74, 0x74, 0x63, 0x6B, 0x3A, 0x10, 0x27, 0, 0]) =
      .ok (.hostSettck 10000, []) := rfl

/-- R78, X7: `shift:` 10 00 00 00, TMS 00 00, TDI FF 00. -/
theorem test_decode_hostShift :
    decode Config.reference ⟨.header, 0, 0⟩
      (.tcp [0x73, 0x68, 0x69, 0x66, 0x74, 0x3A, 0x10, 0, 0, 0, 0, 0, 0xFF, 0]) =
      .ok (.hostShift 16 [0, 0] [0xFF, 0], []) := rfl

/-- V10-6: `shift:` 01 20 00 00 is over capacity before its payload is read. -/
theorem test_decode_hostShift_capacity :
    decode Config.reference ⟨.header, 0, 0⟩ (.tcp [0x73, 0x68, 0x69, 0x66, 0x74, 0x3A, 0x01, 0x20, 0, 0]) =
      .ok (.hostShift 8193 [] [], []) := rfl

/-- V10-7: `Shift:` is unknown. -/
theorem test_decode_hostUnknown :
    decode Config.reference ⟨.header, 0, 0⟩ (.tcp [0x53, 0x68, 0x69, 0x66, 0x74, 0x3A]) =
      .ok (.hostUnknown [0x53, 0x68, 0x69, 0x66, 0x74, 0x3A], []) := rfl

/-- What selects nothing is refused by name: R81, R144, R127, R105. -/
theorem test_decode_refused :
    decode small.cfg ⟨.header, 0, 0⟩ (.packetIn [0, 0, 0, 0, 0]) = .error .packetTooLong ∧
    decode small.cfg ⟨.shift, 0, 0⟩ (.packetIn [0]) = .error .heldDuringShift ∧
    decode small.cfg ⟨.header, 0, 0⟩ .internal = .error .noInternalStep ∧
    decode small.cfg ⟨.header, 0, 0⟩ (.tcp [0x67, 0x65]) = .error .awaitingBytes := ⟨rfl, rfl, rfl, rfl⟩

/-- The `match` words of the table's HOST rows, stream byte 0 most significant (log 14). -/
theorem test_decode_tableWords :
    decodeTableWord 64 0x676574696E666F3A = some .hostGetinfo ∧
    decodeTableWord 56 0x73657474636B3A = some (.hostSettck 0) ∧
    decodeTableWord 48 0x73686966743A = some (.hostShift 0 [] []) ∧
    decodeTableWord 32 0x10000000 = some (.pktHeader [0x10, 0, 0, 0]) := by decide

/-! ### Single operations, results from 95_test_vectors.md -/

/-- V5-1. -/
theorem test_pktHeader_accepts :
    answers (exec (.pktHeader [0x10, 0, 0, 0]) engine) (fun t =>
      decide (t.bitCount = 16 ∧ t.offset = 0 ∧ t.phase = .receiveTms ∧ t.err = engine.err)) = true := by decide

/-- V5-6, V5-9: FF FF FF FF is over capacity, not zero length; the length is checked first. -/
theorem test_pktHeader_rejects :
    answers (exec (.pktHeader [0xFF, 0xFF, 0xFF, 0xFF]) engine) (fun t =>
      decide (t.err = ⟨true, false, false⟩ ∧ t.phase = .header ∧ t.bitCount = 0)) = true ∧
    answers (exec (.pktHeader [0x01, 0x20, 0]) engine) (fun t =>
      decide (t.err = ⟨false, false, true⟩ ∧ t.phase = .header)) = true := by decide

/-- V6-8: the excess is ignored. -/
theorem test_pktTms_excess :
    answers (exec (.pktTms [0xAA, 0xBB, 0xCC, 0xDD]) { engine with phase := .receiveTms, bitCount := 16 }) (fun t =>
      decide (t.tmsBuf.peekBytes 4 = [0xAA, 0xBB, 0, 0] ∧ t.offset = 0 ∧ t.phase = .receiveTdi)) = true := by decide

/-- V6-4: a terminal packet of one byte. -/
theorem test_pktTms_terminal :
    answers (exec (.pktTms [0xC1]) { engine with phase := .receiveTms, bitCount := 520, offset := 64 }) (fun t =>
      decide (t.tmsBuf.peek 64 = 0xC1 ∧ t.offset = 0 ∧ t.phase = .receiveTdi)) = true := by decide

/-- V6-2. -/
theorem test_pktTdi_starts_pass :
    answers (exec (.pktTdi [0xFF, 0]) { engine with phase := .receiveTdi, bitCount := 16, i := 9 }) (fun t =>
      decide (t.tdiBuf.peekBytes 2 = [0xFF, 0] ∧ t.offset = 0 ∧ t.i = 0 ∧ t.phase = .shift)) = true := by decide

/-- V6-7: a packet of no bytes is short. -/
theorem test_pktTdi_short :
    answers (exec (.pktTdi []) { engine with phase := .receiveTdi, bitCount := 520, offset := 64 }) (fun t =>
      decide (t.err = ⟨false, true, false⟩ ∧ t.phase = .header ∧ t.txQ = [])) = true := by decide

/-- V7-1: the five events in order. -/
theorem test_shiftCycle_events :
    answers (exec .shiftCycle { engine with phase := .shift, bitCount := 8, tdiBuf := holding [0xFF] }) (fun t =>
      decide (t.pinTrace = [.write .tck false, .write .tdi true, .write .tms false, .write .tck true, .read true] ∧
        t.tdoBuf.peek 0 = 0x01 ∧ t.i = 1 ∧ t.tck = true ∧ t.tms = false ∧ t.tdi = true)) = true := by decide

/-- V7-2: a bit is cleared and its neighbour kept. -/
theorem test_shiftCycle_clears :
    answers (exec .shiftCycle { engine with
      phase := .shift, bitCount := 16, i := 9, target := .zero
      tdiBuf := holding [0, 0x02], tmsBuf := holding [0, 0xFD], tdoBuf := holding [0, 0x01] }) (fun t =>
      decide (t.tdoBuf.peek 1 = 0x01 ∧ t.i = 10 ∧ t.tdi = true ∧ t.tms = false)) = true := by decide

/-- V8: two bytes go out as one packet. -/
theorem test_shiftReturn_packet :
    answers (exec .shiftReturn { engine with phase := .shift, bitCount := 16, i := 16, tdoBuf := holding [0xFF, 0] })
      (fun t => decide (t.txQ = [[0xFF, 0]] ∧ t.phase = .header)) = true := by decide

/-- V8: no byte, no packet. -/
theorem test_shiftReturn_empty :
    answers (exec .shiftReturn { engine with phase := .shift }) (fun t =>
      decide (t.txQ = [] ∧ t.phase = .header)) = true := by decide

/-- V9-1. -/
theorem test_xreset :
    answers (exec .xreset { engine with
      phase := .receiveTdi, bitCount := 520, offset := 64, rxQ := [[1], [2]], txQ := [[3]]
      err := ⟨false, true, false⟩, tck := true, tms := true }) (fun t =>
      decide (t.phase = .header ∧ t.offset = 0 ∧ t.i = 0 ∧ t.rxQ = [] ∧ t.txQ = [] ∧ t.bitCount = 520 ∧
        t.err = ⟨false, true, false⟩ ∧ t.tck = true ∧ t.tms = true ∧ t.tdi = false)) = true := by decide

/-- V9-3. -/
theorem test_por :
    answers (exec .por { engine with
      phase := .shift, bitCount := 520, i := 4, err := ⟨true, false, false⟩, rxQ := [[1]] }) (fun t =>
      decide (t.phase = .header ∧ t.bitCount = 0 ∧ t.offset = 0 ∧ t.i = 0 ∧ t.err = ⟨false, false, false⟩ ∧
        t.rxQ = [] ∧ t.txQ = [])) = true := by decide

/-- V1: no wrap at the top. -/
theorem test_byteCount :
    answers (exec (.byteCount 4294967295) engine) (fun t => decide (t.result = .count 536870912)) = true ∧
    answers (exec (.byteCount 9) engine) (fun t => decide (t.result = .count 2)) = true := by decide

/-- V3. -/
theorem test_getBit :
    answers (exec (.getBit [0xA5, 0x01] 8) engine) (fun t => decide (t.result = .bit true)) = true ∧
    answers (exec (.getBit [0xA5, 0x01] 9) engine) (fun t => decide (t.result = .bit false)) = true := by decide

/-- V3. -/
theorem test_setBit :
    answers (exec (.setBit [0xFF] 7 false) engine) (fun t => decide (t.result = .bytes [0x7F])) = true ∧
    answers (exec (.setBit [0, 0] 15 true) engine) (fun t => decide (t.result = .bytes [0, 0x80])) = true := by decide

/-- V4 at `C = 4`: lengths C + 1 and C. -/
theorem test_chunk :
    answers (exec (.chunk [0, 1, 2, 3, 4]) small) (fun t =>
      decide (t.result = .packets [[0, 1, 2, 3], [4]])) = true ∧
    answers (exec (.chunk [0, 1, 2, 3]) small) (fun t => decide (t.result = .packets [[0, 1, 2, 3]])) = true := by decide

/-- V4. -/
theorem test_reassemble :
    answers (exec (.reassemble [[0, 1, 2, 3], [4]]) small) (fun t =>
      decide (t.result = .bytes [0, 1, 2, 3, 4])) = true := by decide

/-- X5: the 20 bytes. -/
theorem test_hostGetinfo :
    answers (exec .hostGetinfo engine) (fun t =>
      decide (t.tcpOut = [0x78, 0x76, 0x63, 0x53, 0x65, 0x72, 0x76, 0x65, 0x72, 0x5F, 0x76, 0x31, 0x2E, 0x30, 0x3A,
        0x32, 0x30, 0x34, 0x38, 0x0A])) = true := by decide

/-- X6. -/
theorem test_hostSettck :
    answers (exec (.hostSettck 10000) engine) (fun t =>
      decide (t.tcpOut = [0x10, 0x27, 0, 0] ∧ t.rxQ = [])) = true := by decide

/-- V10-5: three packets to send. -/
theorem test_hostShift :
    answers (exec (.hostShift 16 [0, 0] [0xFF, 0]) engine) (fun t =>
      decide (t.flight = some ⟨16, [0, 0], [0xFF, 0], [[0x10, 0, 0, 0], [0, 0], [0xFF, 0]], []⟩ ∧
        t.rxQ = [] ∧ t.tcpOut = [])) = true := by decide

/-- V10-5: the header packet goes first. -/
theorem test_hostSend :
    answers (step { engine with
      flight := some ⟨16, [0, 0], [0xFF, 0], [[0x10, 0, 0, 0], [0, 0], [0xFF, 0]], []⟩ }) (fun t =>
      decide (t.rxQ = [[0x10, 0, 0, 0]] ∧
        t.flight = some ⟨16, [0, 0], [0xFF, 0], [[0, 0], [0xFF, 0]], []⟩)) = true := by decide

/-- V10-4: the header packet of a zero-length command ends it. -/
theorem test_hostSend_empty :
    answers (step { engine with flight := some ⟨0, [], [], [[0, 0, 0, 0]], []⟩ }) (fun t =>
      decide (t.rxQ = [[0, 0, 0, 0]] ∧ t.flight = none ∧ t.tcpOut = [])) = true := by decide

/-- V10-6. -/
theorem test_hostShift_edges :
    answers (exec (.hostShift 8193 [] []) engine) (fun t =>
      decide (t.rxQ = [] ∧ t.hostLog = [.capacity] ∧ t.session = .tornDown ∧ t.tcpOut = [])) = true := by decide

/-- V10-7. -/
theorem test_hostUnknown :
    answers (exec (.hostUnknown [0x53, 0x68]) engine) (fun t =>
      decide (t.rxQ = [] ∧ t.tcpOut = [] ∧ t.session = .opened ∧ t.hostLog = [.protocolMalformed])) = true := by decide

/-- R84: the lines of `SHIFTCMD 9`. -/
theorem test_shiftcmd :
    answers (exec (.shiftcmd 9 [0x01, 0xFF] [0x80, 0xFE]) engine) (fun t =>
      decide (t.agenda = [.send [9, 0, 0, 0], .send [0x01, 0xFF], .send [0x80, 0xFE]])) = true := by decide

/-- The fixture T_DELAY(1), V7-11 cycle 0. -/
theorem test_target_delay : (Target.delay [false]).apply true true = (.delay [true], false) := by decide

/-- R107: a response of 65 bytes gathered from packets of 64 and 1 (V10-8), here 5 from 4 and 1. -/
theorem test_hostCollect :
    answers (step { small with flight := some ⟨40, [], [], [], [1, 2, 3, 4]⟩, txQ := [[5]] }) (fun t =>
      decide (t.tcpOut = [1, 2, 3, 4, 5] ∧ t.flight = none ∧ t.txQ = [])) = true := by decide

/-- R108: a rejected payload is read and discarded. -/
theorem test_hostDrain :
    answers (step { strict with drain := 3, tcpIn := [1, 2, 3, 0x67] }) (fun t =>
      decide (t.drain = 0 ∧ t.tcpIn = [0x67] ∧ t.rxQ = [])) = true := by decide

/-- R200, R56: a power-on after the third pin event of the first cycle leaves the Target unclocked, after the fourth it
has been clocked once. -/
theorem test_porDuring :
    answers (step { engine with
      phase := .shift, bitCount := 8, target := .delay [false], tdiBuf := holding [1], agenda := [.porDuring 3] })
      (fun t => decide (t.pinTrace = [.write .tck false, .write .tdi true, .write .tms false] ∧
        t.target = .delay [false] ∧ t.phase = .header ∧ t.bitCount = 0)) = true ∧
    answers (step { engine with
      phase := .shift, bitCount := 8, target := .delay [false], tdiBuf := holding [1], agenda := [.porDuring 4] })
      (fun t => decide (t.pinTrace = [.write .tck false, .write .tdi true, .write .tms false, .write .tck true] ∧
        t.target = .delay [true])) = true := by decide

/-- R213: a `shift:` behind a held XRESET is a packet left to send; a `getinfo:` or a response unread is none, but the
response keeps the end from being good. -/
theorem test_runOver :
    { engine with xresetHeld := true, tcpIn := [0x73, 0x68, 0x69, 0x66, 0x74, 0x3A, 0, 0, 0, 0] }.runOver = false ∧
    { engine with tcpIn := [0x67, 0x65, 0x74, 0x69, 0x6E, 0x66, 0x6F, 0x3A] }.runOver = true ∧
    { engine with flight := some ⟨8, [0], [0], [], []⟩, txQ := [[1]] }.runOver = true ∧
    { engine with flight := some ⟨8, [0], [0], [], []⟩, txQ := [[1]] }.goodEnd = false ∧
    engine.goodEnd = true := by decide

/-- R213: nothing to do, in `HEADER` and in a receive state. -/
theorem test_idle :
    faults (step engine) .runOver = true ∧
    faults (step { engine with phase := .receiveTms, bitCount := 8 }) .stuckReceiving = true := by decide

/-- The table's word for `settck:` runs as the first operation after reset (logs 3, 14). -/
theorem test_withFetchWord :
    answers (step (State.reset.withFetchWord 56 0x73657474636B3A)) (fun t => decide (t.tcpOut = [0, 0, 0, 0])) = true := by
  decide

/-! ### Witnesses: for every statement with hypotheses, a state and operands that meet all of them -/

/-- ShortHeaderPacketIsDropped: the lengths 0 and 3, and the step's premises. -/
theorem test_witness_shortHeader :
    small.phase = .header ∧ ([] : Packet).length < 4 ∧ ([1, 0x20, 0] : Packet).length < 4 ∧ small.cfg.valid ∧
    { small with rxQ := [[1, 0x20, 0], [7]] }.undisturbed ∧
    { small with rxQ := [[1, 0x20, 0], [7]] }.rxQ = [1, 0x20, 0] :: [[7]] := by decide

/-- OverCapacityHeaderIsRejected: 8193 and the greatest value. -/
theorem test_witness_overCapacityHeader :
    engine.phase = .header ∧ 8 * engine.cfg.CAP < leValue 0x01 0x20 0 0 ∧
    8 * engine.cfg.CAP < leValue 0xFF 0xFF 0xFF 0xFF := by decide

/-- AcceptedHeaderStartsReception, AcceptedHeaderHidesOldVectors: 1 and 8192. -/
theorem test_witness_acceptedHeader :
    engine.phase = .header ∧ 0 < leValue 1 0 0 0 ∧ leValue 1 0 0 0 ≤ 8 * engine.cfg.CAP ∧
    0 < leValue 0 0x20 0 0 ∧ leValue 0 0x20 0 0 ≤ 8 * engine.cfg.CAP ∧ leValue 0 0 0 0 ≤ 8 * engine.cfg.CAP := by decide

/-- ZeroLengthCommandReturnsAtOnce. -/
theorem test_witness_zeroLength : engine.cfg.valid ∧ engine.phase = .header := by decide

/-- TmsPacketIsStored, of 5 bytes: the first packet and the last, which ends the vector; exact and over-long. -/
theorem test_witness_tmsPacket :
    5 = ((33 : Word32).toNat + 7) / 8 ∧
    4 = min small.cfg.C (5 - 0) ∧ 0 + 4 ≤ small.cfg.CAP ∧ ([1, 2, 3, 4] : Packet).length = 4 ∧ ¬ 5 ≤ 0 + small.cfg.C ∧
    1 = min small.cfg.C (5 - 4) ∧ 4 + 1 ≤ small.cfg.CAP ∧ 5 ≤ 4 + small.cfg.C ∧
    1 < ([5, 6] : Packet).length ∧ small.cfg.excessPolicy = .ignore ∧
    { small with phase := .receiveTms, bitCount := 33, offset := 4 }.phase = .receiveTms ∧
    { small with phase := .receiveTms, bitCount := 33, offset := 4 }.offset = 4 := by decide

/-- TdiPacketIsStored, of 8 bytes: the first packet and the last. -/
theorem test_witness_tdiPacket :
    8 = ((64 : Word32).toNat + 7) / 8 ∧
    4 = min small.cfg.C (8 - 0) ∧ 0 + 4 ≤ small.cfg.CAP ∧ ([1, 2, 3, 4] : Packet).length = 4 ∧ ¬ 8 ≤ 0 + small.cfg.C ∧
    4 = min small.cfg.C (8 - 4) ∧ 4 + 4 ≤ small.cfg.CAP ∧ 8 ≤ 4 + small.cfg.C ∧
    { small with phase := .receiveTdi, bitCount := 64, offset := 4 }.phase = .receiveTdi ∧
    { small with phase := .receiveTdi, bitCount := 64, offset := 4 }.offset = 4 := by decide

/-- BadPayloadPacketAborts: one byte too few, and one too many where that is an error; in either receive state. -/
theorem test_witness_badPayload :
    2 = min small.cfg.C (((16 : Word32).toNat + 7) / 8 - 0) ∧ ([1] : Packet).length < 2 ∧
    2 < ([1, 2, 3] : Packet).length ∧ strict.cfg.excessPolicy = .error ∧
    { small with phase := .receiveTms, bitCount := 16 }.phase = .receiveTms ∧
    { strict with phase := .receiveTdi, bitCount := 16 }.phase = .receiveTdi := by decide

/-- UntriggeredOperationsHaveNoStep: in `SHIFT` at its end nothing but the return is triggered, in `HEADER` only a
packet is. -/
theorem test_witness_untriggered :
    { small with phase := .shift, bitCount := 1, i := 1 }.phase ≠ .header ∧
    { small with phase := .shift, bitCount := 1, i := 1 }.phase ≠ .receiveTms ∧
    { small with phase := .shift, bitCount := 1, i := 1 }.phase ≠ .receiveTdi ∧
    ¬ ({ small with phase := .shift, bitCount := 1, i := 1 }.phase = .shift ∧ 1 < (1 : Word32).toNat) ∧
    ¬ ({ small with phase := .shift, bitCount := 1, i := 0 }.phase = .shift ∧ 0 = (1 : Word32).toNat) := by decide

/-- TmsReceptionReassemblesTheVector: a vector of a whole packet and one byte, and of the whole buffer. -/
theorem test_witness_tmsReception :
    small.cfg.valid ∧ small.undisturbed ∧ { small with phase := .receiveTms }.phase = .receiveTms ∧ small.offset = 0 ∧
    ([1, 2, 3, 4, 5] : List Byte).length = ((33 : Word32).toNat + 7) / 8 ∧
    1 ≤ ([1, 2, 3, 4, 5] : List Byte).length ∧ ([1, 2, 3, 4, 5] : List Byte).length ≤ small.cfg.CAP ∧
    [[1, 2, 3, 4], [5], [9]] = chunk small.cfg.C [1, 2, 3, 4, 5] ++ [[9]] ∧
    ([1, 2, 3, 4, 5, 6, 7, 8] : List Byte).length = ((64 : Word32).toNat + 7) / 8 ∧
    ([1, 2, 3, 4, 5, 6, 7, 8] : List Byte).length ≤ small.cfg.CAP := by decide

/-- TdiReceptionReassemblesTheVector: a vector of one byte. -/
theorem test_witness_tdiReception :
    small.cfg.valid ∧ small.undisturbed ∧ { small with phase := .receiveTdi }.phase = .receiveTdi ∧ small.offset = 0 ∧
    ([1] : List Byte).length = ((1 : Word32).toNat + 7) / 8 ∧ 1 ≤ ([1] : List Byte).length ∧
    ([1] : List Byte).length ≤ small.cfg.CAP ∧ [[1]] = chunk small.cfg.C [1] ++ [] := by decide

/-- An Engine in the middle of a command, with an empty packet and then a header waiting. -/
def aborting : State := { small with phase := .receiveTdi, bitCount := 33, offset := 4, rxQ := [[], [0, 0, 0, 0]] }

/-- PacketAfterAbortIsDecodedAsHeader. -/
theorem test_witness_packetAfterAbort :
    aborting.receiving ∧ aborting.undisturbed ∧ aborting.rxQ = [] :: [0, 0, 0, 0] :: [] ∧
    ([] : Packet).length < min aborting.cfg.C ((aborting.bitCount.toNat + 7) / 8 - aborting.offset) ∧
    ([0, 0, 0, 0] : Packet).length ≤ aborting.cfg.C := by decide

/-- PayloadBytesNeverDecideDecoding: two packets of one length, both answered, in either receive state. -/
theorem test_witness_payloadBytes :
    ([1] : Packet).length = ([2] : Packet).length ∧
    (∃ t u, exec (.pktTms [1]) { small with phase := .receiveTms, bitCount := 8 } = .next t ∧
      exec (.pktTms [2]) { small with phase := .receiveTms, bitCount := 8 } = .next u) ∧
    (∃ t u, exec (.pktTdi [1]) { small with phase := .receiveTdi, bitCount := 16 } = .next t ∧
      exec (.pktTdi [2]) { small with phase := .receiveTdi, bitCount := 16 } = .next u) := ⟨rfl, ⟨_, _, rfl, rfl⟩, ⟨_, _, rfl, rfl⟩⟩

/-- CycleDrivesThePinsInOrder: the first cycle and the last one of a full buffer. -/
theorem test_witness_cycle :
    { small with phase := .shift, bitCount := 64 }.phase = .shift ∧ 0 < (64 : Word32).toNat ∧ 0 / 8 < small.cfg.CAP ∧
    63 < (64 : Word32).toNat ∧ 63 / 8 < small.cfg.CAP := by decide

/-- ReturnSendsTheTdoVector: no byte, and the whole buffer. -/
theorem test_witness_return :
    small.cfg.valid ∧ { small with phase := .shift }.phase = .shift ∧ 0 = (0 : Word32).toNat ∧
    0 = ((0 : Word32).toNat + 7) / 8 ∧ 0 ≤ small.cfg.CAP ∧ 64 = (64 : Word32).toNat ∧
    8 = ((64 : Word32).toNat + 7) / 8 ∧ 8 ≤ small.cfg.CAP := by decide

theorem zeroed_getBit (j : Nat) : Memory.zeroed.getBit j = false := by
  simp [Memory.getBit, byteGetBit]

/-- PassReturnsWhatTheTargetAnswered: passes of 0, of 1 and of 64 cycles, with a packet waiting and an XRESET held. -/
theorem test_witness_pass :
    small.cfg.valid ∧ small.agenda = [] ∧
    { small with phase := .shift, bitCount := 64, rxQ := [[1]], xresetHeld := true }.phase = .shift ∧ small.i = 0 ∧
    64 = (64 : Word32).toNat ∧ 64 ≤ 8 * small.cfg.CAP ∧ 1 = (1 : Word32).toNat ∧ 0 = (0 : Word32).toNat ∧
    ∀ j, small.tdoBuf.getBit j = false :=
  ⟨by decide, by decide, by decide, by decide, by decide, by decide, by decide, by decide, zeroed_getBit⟩

/-- OneCommandEndToEnd: one bit, and the whole buffer in two packets a vector. -/
theorem test_witness_oneCommand :
    small.cfg.valid ∧ small.undisturbed ∧ small.phase = .header ∧ 1 = ((1 : Word32).toNat + 7) / 8 ∧
    1 ≤ (1 : Word32).toNat ∧ (1 : Word32).toNat ≤ 8 * small.cfg.CAP ∧ ([1] : List Byte).length = 1 ∧
    [[1, 0, 0, 0], [1], [0], [9]] = commandPackets small.cfg.C 1 [1] [0] ++ [[9]] ∧
    8 = ((64 : Word32).toNat + 7) / 8 ∧ (64 : Word32).toNat ≤ 8 * small.cfg.CAP ∧
    commandPackets small.cfg.C 64 [1, 2, 3, 4, 5, 6, 7, 8] [8, 7, 6, 5, 4, 3, 2, 1] =
      [[64, 0, 0, 0], [1, 2, 3, 4], [5, 6, 7, 8], [8, 7, 6, 5], [4, 3, 2, 1]] := by decide

/-- An Engine in the first cycle of a pass, with a flag set. -/
def shifting : State := { small with phase := .shift, bitCount := 2, err := ⟨true, true, true⟩ }

/-- An Engine with a header waiting. -/
def headed : State := { small with rxQ := [[9, 0, 0, 0]], err := ⟨true, true, true⟩ }

/-- PinsMoveOnlyInCycles, ErrorFlagsAreSticky, ParametersNeverChange: a cycle and a header, no power-on. -/
theorem test_witness_steps :
    (∃ t, step shifting = .next t ∧ decide (t.powerOns = shifting.powerOns) = true) ∧
    (∃ t, step headed = .next t ∧ decide (t.powerOns = headed.powerOns) = true) ∧
    shifting.err = ⟨true, true, true⟩ ∧ headed.err = ⟨true, true, true⟩ :=
  ⟨of_answers (by decide), of_answers (by decide), rfl, rfl⟩

/-- BitCountIsWrittenOnlyByHeaders: a header of 9 bits, and one of none. -/
theorem test_witness_bitCount :
    (∃ t, step headed = .next t ∧ decide (t.powerOns = headed.powerOns ∧ t.bitCount ≠ headed.bitCount) = true) ∧
    ∃ t, step { small with bitCount := 7, rxQ := [[0, 0, 0, 0]] } = .next t ∧
      decide (t.powerOns = small.powerOns ∧ t.bitCount ≠ 7) = true :=
  ⟨of_answers (by decide), of_answers (by decide)⟩

/-- XresetResynchronises, XresetComesBeforeWaitingPackets. -/
theorem test_witness_xreset :
    { headed with xresetHeld := true }.agenda = [] ∧ { headed with xresetHeld := true }.xresetHeld = true ∧
    { headed with xresetHeld := true }.phase ≠ .shift := by decide

/-- XresetIsHeldThroughThePass: the last cycle and the return. -/
theorem test_witness_xresetHeld :
    shifting.phase = .shift ∧ shifting.agenda = [] ∧ { shifting with i := 1 }.i < shifting.bitCount.toNat ∧
    { shifting with i := 2 }.i = shifting.bitCount.toNat ∧ (shifting.bitCount.toNat + 7) / 8 ≤ shifting.cfg.CAP := by
  decide

/-- PowerOnCutsACycleShort, StepRunsTheSelectedOperation: in the last cycle of a pass, and where no cycle runs. -/
theorem test_witness_porDuring :
    { shifting with i := 1, agenda := [.porDuring 0] }.agenda = .porDuring 0 :: [] ∧ shifting.phase = .shift ∧
    { shifting with i := 1 }.i < shifting.bitCount.toNat ∧
    ¬ ({ shifting with i := 2 }.phase = .shift ∧ { shifting with i := 2 }.i < shifting.bitCount.toNat) := by decide

/-- TargetIsClockedByRisingEdges: the latch low before the edge; and a write of 1 to a latch that is high already. -/
theorem test_witness_edge :
    small.tck = false ∧ ¬ (Pin.tck = .tck ∧ true = true ∧ { small with tck := true }.tck = false) ∧
    ¬ (Pin.tdi = .tck ∧ true = true ∧ small.tck = false) ∧
    ¬ (Pin.tck = .tck ∧ false = true ∧ small.tck = false) := by decide

/-- PowerOnResetsTheEngine: scheduled in the middle of a pass. -/
theorem test_witness_por : { shifting with agenda := [.por, .engine] }.agenda = .por :: [.engine] := by decide

/-- GetBitReadsOneBit, SetBitChangesOneBit: the last bit that exists, and the first that does not. -/
theorem test_witness_bits :
    15 / 8 < ([0xA5, 0x01] : List Byte).length ∧ ([0xA5, 0x01] : List Byte).length ≤ 16 / 8 ∧
    15 < 8 * ([0xA5, 0x01] : List Byte).length := by decide

/-- ChunkCutsTheVector, ReassembleUndoesChunk: the least packet capacity R6 allows. -/
theorem test_witness_chunk : small.cfg.valid ∧ small.cfg.C = 4 := by decide

/-- ShiftcmdExpandsToTheHostsPackets, ShiftSendsHeaderThenTmsThenTdi: one bit, and the whole buffer. -/
theorem test_witness_shift :
    small.cfg.valid ∧ small.hostReady = true ∧ ([1] : List Byte).length = ((1 : Word32).toNat + 7) / 8 ∧
    1 ≤ (1 : Word32).toNat ∧ (1 : Word32).toNat ≤ 8 * small.cfg.CAP ∧
    ([1, 2, 3, 4, 5, 6, 7, 8] : List Byte).length = ((64 : Word32).toNat + 7) / 8 ∧
    (64 : Word32).toNat ≤ 8 * small.cfg.CAP := by decide

/-- GetinfoWritesTheCapabilityString, SettckEchoesItsFourBytes, EmptyShiftIsAnsweredAtOnce,
UnknownCommandHasNoSideEffect. -/
theorem test_witness_hostReady : small.hostReady = true ∧ small.cfg.valid ∧ small.cfg.maxPayload = 2048 := by decide

/-- OverCapacityShiftIsRejectedByTheHost: the least such command, under either policy. -/
theorem test_witness_overCapacityShift :
    small.hostReady = true ∧ strict.hostReady = true ∧ 8 * small.cfg.CAP < (65 : Word32).toNat ∧
    8 * strict.cfg.CAP < (65 : Word32).toNat ∧ small.cfg.hostCapPolicy = .teardown ∧
    strict.cfg.hostCapPolicy = .drainAndContinue := by decide

/-- HostSendsOnePacketAMove. -/
theorem test_witness_hostSend :
    { small with agenda := [.host], flight := some ⟨1, [1], [0], [[1], [0]], []⟩ }.session = .opened ∧
    { small with agenda := [.host], flight := some ⟨1, [1], [0], [[1], [0]], []⟩ }.flight =
      some ⟨1, [1], [0], [[1], [0]], []⟩ ∧
    Flight.unsent ⟨1, [1], [0], [[1], [0]], []⟩ = [1] :: [[0]] ∧ ([[0]] : List Packet) ≠ [] ∧
    { small with agenda := [.host] }.agenda = .host :: [] := by decide

/-- AnyTransportOperationMayTimeOut: with a packet to send, and with all sent. -/
theorem test_witness_anyTimeout :
    small.session = .opened ∧ { small with agenda := [.timeout] }.agenda = .timeout :: [] ∧
    { small with flight := some ⟨1, [1], [0], [[0]], []⟩ }.flight = some ⟨1, [1], [0], [[0]], []⟩ ∧
    { small with flight := some ⟨1, [1], [0], [], []⟩ }.flight = some ⟨1, [1], [0], [], []⟩ := by decide

/-- A Host that waits for the five bytes of its response, which stand in two packets of its own division. -/
def relaying : State := { small with flight := some ⟨40, [], [], [], []⟩, txQ := [[1], [2, 3, 4, 5]] }

/-- ResponseIsRelayedWhateverItsPackets. -/
theorem test_witness_relay :
    relaying.undisturbed ∧ relaying.phase = .header ∧ relaying.rxQ = [] ∧ relaying.session = .opened ∧
    relaying.flight = some ⟨40, [], [], [], []⟩ ∧ Flight.unsent ⟨40, [], [], [], []⟩ = [] ∧
    (∀ q ∈ relaying.txQ, q ≠ []) ∧ 1 ≤ (40 : Word32).toNat ∧
    relaying.txQ.flatten.length = ((40 : Word32).toNat + 7) / 8 := by decide

/-- LostConnectionTearsTheSessionDown: either event. -/
theorem test_witness_lost :
    small.session = .opened ∧ { small with agenda := [.tcpClosed] }.agenda = .tcpClosed :: [] ∧
    { small with agenda := [.ioFailure] }.agenda = .ioFailure :: [] := by decide

/-- AbortedCommandEndsByTimeout. -/
theorem test_witness_timeout :
    { relaying with txQ := [] }.undisturbed ∧ { relaying with txQ := [] }.phase ≠ .shift ∧
    { relaying with txQ := [] }.rxQ = [] ∧ { relaying with txQ := [] }.txQ = [] ∧
    { relaying with txQ := [] }.session = .opened ∧
    { relaying with txQ := [] }.flight = some ⟨40, [], [], [], []⟩ ∧
    Flight.unsent ⟨40, [], [], [], []⟩ = [] := by decide

/-- StepRunsTheSelectedOperation: a packet of `C` bytes in each state, a cycle and a return, a command, a call, the
two resets. -/
theorem test_witness_selected :
    headed.undisturbed ∧ headed.rxQ = [9, 0, 0, 0] :: [] ∧ ([9, 0, 0, 0] : Packet).length ≤ headed.cfg.C ∧
    headed.phase = .header ∧ { headed with phase := .receiveTms }.phase = .receiveTms ∧
    { headed with phase := .receiveTdi }.phase = .receiveTdi ∧
    shifting.agenda = [] ∧ shifting.phase = .shift ∧ shifting.i < shifting.bitCount.toNat ∧
    { shifting with i := 2 }.i = shifting.bitCount.toNat ∧
    small.undisturbed ∧ small.phase ≠ .shift ∧ small.rxQ = [] ∧ small.hostReady = true ∧
    (Instr.hostUnknown [0x53]).wf small.cfg = true ∧ (decodeCall (.byteCount 9)).wf small.cfg = true ∧
    { small with agenda := [.call (.byteCount 9)] }.agenda = .call (.byteCount 9) :: [] ∧
    { small with agenda := [.xreset] }.agenda = .xreset :: [] ∧ { small with agenda := [.por] }.agenda = .por :: [] := by
  decide

/-- StepRunsTheSelectedOperation, the command clause. -/
theorem test_witness_selected_command :
    decode small.cfg { small with tcpIn := [0x53] }.control (.tcp [0x53]) = .ok (.hostUnknown [0x53], []) := rfl

/-- DecodeUndoesEncode: a well-formed operation of every row, at the bounds of its operands. -/
theorem test_witness_wf :
    (Instr.pktHeader [0, 0, 0, 0]).wf small.cfg = true ∧ (Instr.pktTms []).wf small.cfg = true ∧
    (Instr.pktTdi [0, 0, 0, 0]).wf small.cfg = true ∧ Instr.shiftCycle.wf small.cfg = true ∧
    Instr.shiftReturn.wf small.cfg = true ∧ Instr.xreset.wf small.cfg = true ∧ Instr.por.wf small.cfg = true ∧
    (Instr.byteCount 4294967295).wf small.cfg = true ∧ (Instr.getBit [0] 7).wf small.cfg = true ∧
    (Instr.setBit [0] 7 true).wf small.cfg = true ∧ (Instr.chunk []).wf small.cfg = true ∧
    (Instr.reassemble [[1, 2, 3, 4], []]).wf small.cfg = true ∧ Instr.hostGetinfo.wf small.cfg = true ∧
    (Instr.hostSettck 4294967295).wf small.cfg = true ∧ (Instr.hostShift 0 [] []).wf small.cfg = true ∧
    (Instr.hostUnknown [0]).wf small.cfg = true ∧ (Instr.shiftcmd 0 [] []).wf small.cfg = true := by decide

/-- A state with zeroed buffers meets the invariants if its counters and channels do. -/
theorem inv_of_zeroed {s : State} (hv : s.cfg.valid) (h1 : s.tmsBuf = Memory.zeroed) (h2 : s.tdiBuf = Memory.zeroed)
    (h3 : s.tdoBuf = Memory.zeroed) (ha : s.bitCount.toNat ≤ 8 * s.cfg.CAP)
    (hp : s.receiving → 1 ≤ s.byteCount ∧ s.cfg.C ∣ s.offset ∧ s.offset < s.byteCount)
    (hc : s.phase = .shift → s.i ≤ s.bitCount.toNat) (hr : ∀ p ∈ s.rxQ, p.length ≤ s.cfg.C) (ht : s.txQ = [])
    (hf : s.flight = none) : s.Inv where
  params := hv
  canonical b := by cases b <;> simp [State.buf, h1, h2, h3]
  accepted := ha
  position := hp
  cycle := hc
  fresh b h := by cases b <;> simp [State.buf, h1, h2, h3] at h
  together b := by cases b <;> simp [State.buf, h1, h2, h3]
  filled _ := by simp [h1]
  tail _ b a _ := by cases b <;> simp [State.buf, h1, h2, h3]
  tdoTail _ j _ := by rw [h3]; exact zeroed_getBit j
  unsampled _ j _ := by rw [h3]; exact zeroed_getBit j
  unwritten _ j := by rw [h3]; exact zeroed_getBit j
  inbound := hr
  outbound q h := by simp [ht] at h
  inFlight f h := by simp [hf] at h

/-- StepsKeepTheReachableInvariants: a header, a payload packet at the last offset and a cycle, each taken from a state
that meets the invariants. -/
theorem test_witness_inv :
    (headed.Inv ∧ ∃ t, step headed = .next t ∧ true = true) ∧
    (aborting.Inv ∧ ∃ t, step aborting = .next t ∧ true = true) ∧
    (shifting.Inv ∧ ∃ t, step shifting = .next t ∧ true = true) :=
  ⟨⟨inv_of_zeroed (by decide) rfl rfl rfl (by decide) (by decide) (by decide) (by decide) rfl rfl,
      of_answers (p := fun _ => true) (by decide)⟩,
   ⟨inv_of_zeroed (by decide) rfl rfl rfl (by decide) (by decide) (by decide) (by decide) rfl rfl,
      of_answers (p := fun _ => true) (by decide)⟩,
   ⟨inv_of_zeroed (by decide) rfl rfl rfl (by decide) (by decide) (by decide) (by decide) rfl rfl,
      of_answers (p := fun _ => true) (by decide)⟩⟩

/-- BuffersStayCanonical: a cycle in a state whose buffers hold bytes at both ends. -/
theorem test_witness_canonical :
    (∀ b, ({ shifting with tdoBuf := ⟨.zero, [(0, 1), (7, 255)]⟩ }.buf b).wf shifting.cfg.CAP = true) ∧
    ∃ t, step { shifting with tdoBuf := ⟨.zero, [(0, 1), (7, 255)]⟩ } = .next t ∧ true = true :=
  ⟨by intro b; cases b <;> decide, of_answers (p := fun _ => true) (by decide)⟩

/-- OnlyWaitingStopsTheMachine: both stops happen in states that meet the invariants. -/
theorem test_witness_stops :
    (small.Inv ∧ step small = .fault .runOver) ∧
    ({ aborting with rxQ := [] }.Inv ∧ step { aborting with rxQ := [] } = .fault .stuckReceiving) :=
  ⟨⟨inv_of_zeroed (by decide) rfl rfl rfl (by decide) (by decide) (by decide) (by decide) rfl rfl,
      of_faults (by decide)⟩,
   ⟨inv_of_zeroed (by decide) rfl rfl rfl (by decide) (by decide) (by decide) (by decide) rfl rfl,
      of_faults (by decide)⟩⟩

/-- RunOverIsTheEndOfARun. -/
theorem test_witness_runOver : step small = .fault .runOver := of_faults (by decide)

/-- RunIsOverWithoutPacketsLeft: an unsent packet; a whole `shift:` of 64 bits, the capacity, in the stream; an idle
Host and one that waits for its response. -/
theorem test_witness_packetLeft :
    { small with flight := some ⟨1, [1], [0], [[0]], []⟩ }.session = .opened ∧
    Flight.unsent ⟨1, [1], [0], [[0]], []⟩ ≠ [] ∧ small.drain = 0 ∧ (64 : Word32).toNat ≤ 8 * small.cfg.CAP ∧
    small.phase = .header ∧ small.rxQ = [] ∧ small.agenda = [] ∧ small.tcpIn = [] ∧ small.flight = none ∧
    relaying.phase = .header ∧ relaying.rxQ = [] ∧ relaying.agenda = [] ∧ relaying.tcpIn = [] ∧
    Flight.unsent ⟨40, [], [], [], []⟩ = [] := by decide

/-- RunIsOverWithoutPacketsLeft, the stream clause. -/
theorem test_witness_packetLeft_stream :
    decode small.cfg small.control (.tcp [0x73, 0x68, 0x69, 0x66, 0x74, 0x3A, 64, 0, 0, 0,
      1, 2, 3, 4, 5, 6, 7, 8, 8, 7, 6, 5, 4, 3, 2, 1]) =
      .ok (.hostShift 64 [1, 2, 3, 4, 5, 6, 7, 8] [8, 7, 6, 5, 4, 3, 2, 1], []) := rfl

end Sys2Proof.Tests
end

section
/-! PROOFS. What one step can write: each effect of an operation once, sorted by the part of the Engine it touches, and
what is kept of the state outside it. The statements about single steps are read off these. -/

namespace Sys2Proof.Machine

/-! ### What is left alone -/

/-- The Engine, the pins, the Target and the parameters are as they were: only the schedule, the queues, the Host and
the result of a call may differ. -/
def EngineKept (s t : State) : Prop :=
  t = { s with
    agenda := t.agenda, rxQ := t.rxQ, txQ := t.txQ, session := t.session, tcpIn := t.tcpIn, tcpOut := t.tcpOut
    flight := t.flight, drain := t.drain, xresetHeld := t.xresetHeld, hostLog := t.hostLog, result := t.result }

section
variable {s t : State} (h : EngineKept s t)
include h

theorem EngineKept.cfg : t.cfg = s.cfg := (congrArg State.cfg h :)
theorem EngineKept.bitCount : t.bitCount = s.bitCount := (congrArg State.bitCount h :)
theorem EngineKept.err : t.err = s.err := (congrArg State.err h :)
theorem EngineKept.phase : t.phase = s.phase := (congrArg State.phase h :)
theorem EngineKept.offset : t.offset = s.offset := (congrArg State.offset h :)
theorem EngineKept.i : t.i = s.i := (congrArg State.i h :)
theorem EngineKept.tmsBuf : t.tmsBuf = s.tmsBuf := (congrArg State.tmsBuf h :)
theorem EngineKept.tdiBuf : t.tdiBuf = s.tdiBuf := (congrArg State.tdiBuf h :)
theorem EngineKept.tdoBuf : t.tdoBuf = s.tdoBuf := (congrArg State.tdoBuf h :)

end

/-- The pin trace, the latches, the Target and the level it drives are as they were (R29, R142). -/
def PinsKept (s t : State) : Prop :=
  t.pinTrace = s.pinTrace ∧ t.tck = s.tck ∧ t.tms = s.tms ∧ t.tdi = s.tdi ∧ t.target = s.target ∧ t.tdo = s.tdo

theorem EngineKept.pins {s t : State} (h : EngineKept s t) : PinsKept s t :=
  ⟨(congrArg State.pinTrace h :), (congrArg State.tck h :), (congrArg State.tms h :), (congrArg State.tdi h :),
    (congrArg State.target h :), (congrArg State.tdo h :)⟩

theorem Moved.engineKept {s t : State} (h : Moved s t) : EngineKept s t := by
  have hresult : t.result = s.result := (congrArg State.result h.frame :)
  unfold EngineKept
  rw [hresult]
  exact h.frame

/-- What carries an operation has been taken: the schedule, the stream and the inbound queue alone differ, and the queue
holds no packet that was not in it. -/
structure Taken (s u : State) : Prop where
  frame : u = { s with agenda := u.agenda, rxQ := u.rxQ, tcpIn := u.tcpIn }
  inbound : ∀ p ∈ u.rxQ, p ∈ s.rxQ

theorem Taken.engineKept {s u : State} (h : Taken s u) : EngineKept s u := by
  unfold EngineKept
  rw [h.frame]

theorem Taken.of_agenda {s u : State} (h : u = { s with agenda := u.agenda }) : Taken s u := by
  have hrx : u.rxQ = s.rxQ := (congrArg State.rxQ h :)
  have htcp : u.tcpIn = s.tcpIn := (congrArg State.tcpIn h :)
  exact ⟨by rw [hrx, htcp]; exact h, fun p hp => hrx ▸ hp⟩

theorem Taken.of_packet {s u : State} {p : Packet} (hq : s.rxQ = p :: u.rxQ)
    (h : u = { s with agenda := u.agenda, rxQ := u.rxQ }) : Taken s u := by
  have htcp : u.tcpIn = s.tcpIn := (congrArg State.tcpIn h :)
  exact ⟨by rw [htcp]; exact h, fun q hm => hq ▸ List.mem_cons_of_mem p hm⟩

theorem Taken.of_stream {s u : State} (h : u = { s with agenda := u.agenda, tcpIn := u.tcpIn }) : Taken s u := by
  have hrx : u.rxQ = s.rxQ := (congrArg State.rxQ h :)
  exact ⟨by rw [hrx]; exact h, fun p hp => hrx ▸ hp⟩

/-- Before a power-on a cycle may have been cut short; before any other operation the pins are as they were. -/
theorem Selected.taken {s u : State} {i : Instr} (h : Selected s u i) (hi : i ≠ .por) : Taken s u := by
  cases i with
  | pktHeader p | pktTms p | pktTdi p =>
    obtain ⟨-, hq, -, hu⟩ := h
    exact .of_packet hq hu
  | shiftCycle | shiftReturn =>
    obtain ⟨-, -, hu⟩ := h
    exact .of_agenda hu
  | xreset | byteCount _ | getBit _ _ | setBit _ _ _ | chunk _ | reassemble _ | shiftcmd _ _ _ => exact .of_agenda h
  | hostGetinfo | hostSettck _ | hostShift _ _ _ | hostUnknown _ => exact .of_stream h.2
  | por => exact absurd rfl hi

/-! ### What an operation writes -/

/-- The capacity check, passed: in bytes and in bits (R171). -/
theorem byteCountOf_le_iff (n : Word32) (cap : Nat) : byteCountOf n ≤ cap ↔ n.toNat ≤ 8 * cap := by
  rw [← Nat.not_lt, byteCountOf_gt_iff, Nat.not_lt]

theorem acceptHeader_eq (s : State) (n : Word32) :
    s.acceptHeader n = { s with
      tmsBuf := Memory.zeroed, tdiBuf := Memory.zeroed, tdoBuf := Memory.zeroed, bitCount := n, offset := 0
      i := if byteCountOf n = 0 then 0 else s.i
      phase := if byteCountOf n = 0 then .shift else .receiveTms } := by
  unfold State.acceptHeader
  split <;> rfl

/-- A payload packet is stored: the buffer it goes to in the Engine's receive state, and that its bytes are there to be
taken and fit (R122, R123). -/
structure Stores (u : State) (b : BufId) (p : Packet) : Prop where
  receives : (b = .tms ∧ u.phase = .receiveTms) ∨ (b = .tdi ∧ u.phase = .receiveTdi)
  enough : u.need ≤ p.length
  fits : u.offset + u.need ≤ u.cfg.CAP

/-- What an operation other than a power-on does to the state it runs on, if it answers one. The operations of the Host
and the function calls are one case: they leave the Engine and the queues as they are, and a command they put in flight
is within capacity and wholly unsent. It says what is written, and of the guards what later proofs need. -/
inductive Effect (u : State) : Instr → State → Prop
  | aborted (i : Instr) (x : EngineError) : Effect u i (u.raise x)
  | accepted (p : Packet) (n : Word32) (hphase : u.phase = .header) (hn : headerBitCount p = some n)
      (hcap : byteCountOf n ≤ u.cfg.CAP) : Effect u (.pktHeader p) (u.acceptHeader n)
  | storedMore (i : Instr) (b : BufId) (p : Packet) (hs : Stores u b p) (hmore : u.offset + u.cfg.C < u.byteCount) :
      Effect u i { u.stored b p with offset := u.offset + u.cfg.C }
  | tmsComplete (p : Packet) (hs : Stores u .tms p) :
      Effect u (.pktTms p) { u.stored .tms p with offset := 0, phase := .receiveTdi }
  | tdiComplete (p : Packet) (hs : Stores u .tdi p) :
      Effect u (.pktTdi p) { u.stored .tdi p with offset := 0, i := 0, phase := .shift }
  | cycled (hphase : u.phase = .shift) (hi : u.i < u.bitCount.toNat) (hcap : u.i / 8 < u.cfg.CAP) :
      Effect u .shiftCycle { u.jtagCycle (u.tdiBuf.getBit u.i) (u.tmsBuf.getBit u.i) with
        tdoBuf := u.tdoBuf.setBit u.i (u.jtagSample (u.tdiBuf.getBit u.i) (u.tmsBuf.getBit u.i))
        i := u.i + 1 }
  | returned : Effect u .shiftReturn
      { u with txQ := u.txQ ++ chunk u.cfg.C (u.tdoBuf.peekBytes u.byteCount), phase := .header }
  | xresetTaken : Effect u .xreset u.xresetTaken
  | hostSide (i : Instr) (t : State) (hkept : EngineKept u t) (hrx : t.rxQ = u.rxQ) (htx : t.txQ = u.txQ)
      (hflight : ∀ f, t.flight = some f → u.flight = some f ∨
        ∃ n a b, byteCountOf n ≤ u.cfg.CAP ∧ f = ⟨n, a, b, commandPackets u.cfg.C n a b, []⟩) : Effect u i t

/-- An operation that keeps the queues and the command in flight, besides the Engine, is one of the Host's side. -/
theorem Effect.of_result {u t : State} {i : Instr} (h : t = { u with
    agenda := t.agenda, tcpIn := t.tcpIn, tcpOut := t.tcpOut, xresetHeld := t.xresetHeld, hostLog := t.hostLog
    result := t.result }) : Effect u i t := by
  have hflight : t.flight = u.flight := (congrArg State.flight h :)
  refine .hostSide i t ?_ (congrArg State.rxQ h :) (congrArg State.txQ h :) fun f hf => .inl (hflight ▸ hf)
  unfold EngineKept
  rw [h]

theorem Effect.of_hostReject (u : State) (n : Word32) (i : Instr) : Effect u i (u.hostReject n) := by
  have hframe := hostReject_frame u n
  refine .hostSide i _ ?_ (congrArg State.rxQ hframe :) (congrArg State.txQ hframe :) fun f hf => ?_
  · unfold EngineKept
    rw [hframe]
  · rcases hostReject_flight u n with h | h
    · rw [h] at hf; cases hf
    · exact .inl (h ▸ hf)

theorem execPktHeader_effect {p : Packet} {u t : State} (h : execPktHeader p u = .next t) :
    Effect u (.pktHeader p) t := by
  obtain ⟨hphase, rfl | rfl | ⟨n, hn, hcap, rfl⟩⟩ := execPktHeader_next h
  · exact .aborted _ _
  · exact .aborted _ _
  · exact .accepted p n hphase hn hcap

theorem execPktTms_effect {p : Packet} {u t : State} (h : execPktTms p u = .next t) : Effect u (.pktTms p) t := by
  obtain ⟨hphase, hpay⟩ := execPktTms_next h
  obtain rfl | ⟨hl, hc, ⟨-, rfl⟩ | ⟨hmore, rfl⟩⟩ := payload_next hpay
  · exact .aborted _ _
  · exact .tmsComplete p ⟨.inl ⟨rfl, hphase⟩, hl, hc⟩
  · exact .storedMore _ .tms p ⟨.inl ⟨rfl, hphase⟩, hl, hc⟩ hmore

theorem execPktTdi_effect {p : Packet} {u t : State} (h : execPktTdi p u = .next t) : Effect u (.pktTdi p) t := by
  obtain ⟨hphase, hpay⟩ := execPktTdi_next h
  obtain rfl | ⟨hl, hc, ⟨-, rfl⟩ | ⟨hmore, rfl⟩⟩ := payload_next hpay
  · exact .aborted _ _
  · exact .tdiComplete p ⟨.inr ⟨rfl, hphase⟩, hl, hc⟩
  · exact .storedMore _ .tdi p ⟨.inr ⟨rfl, hphase⟩, hl, hc⟩ hmore

theorem execHostShift_effect {n : Word32} {a b : List Byte} {u t : State} (h : execHostShift n a b u = .next t) :
    Effect u (.hostShift n a b) t := by
  obtain ⟨-, ⟨-, rfl⟩ | ⟨hcap, rfl⟩⟩ := execHostShift_next h
  · exact .of_hostReject u n _
  · refine .hostSide _ _ rfl rfl rfl fun f hf => .inr ⟨n, a, b, hcap, ?_⟩
    cases hf
    rfl

theorem execXreset_effect {u t : State} (h : execXreset u = .next t) : Effect u .xreset t := by
  obtain ⟨-, rfl⟩ | ⟨-, rfl⟩ := execXreset_next h
  · exact .of_result rfl
  · exact .xresetTaken

/-- Every operation but a power-on has one of the effects. -/
theorem exec_effect {i : Instr} {u t : State} (hi : i ≠ .por) (h : exec i u = .next t) : Effect u i t := by
  cases i with
  | pktHeader p => exact execPktHeader_effect h
  | pktTms p => exact execPktTms_effect h
  | pktTdi p => exact execPktTdi_effect h
  | shiftCycle =>
    obtain ⟨hphase, hlt, hcap, rfl⟩ := execShiftCycle_next h
    exact .cycled hphase hlt hcap
  | shiftReturn =>
    obtain ⟨-, -, -, rfl⟩ := execShiftReturn_next h
    exact .returned
  | xreset => exact execXreset_effect h
  | por => exact absurd rfl hi
  | byteCount n | chunk v | reassemble ps | shiftcmd n a b => cases h; exact .of_result rfl
  | getBit buf k =>
    have ht := execGetBit_next h
    exact .of_result (by rw [ht])
  | setBit buf k v =>
    have ht := execSetBit_next h
    exact .of_result (by rw [ht])
  | hostGetinfo =>
    have ht := (execHostGetinfo_next h).2
    exact .of_result (by rw [ht])
  | hostSettck n =>
    have ht := (execHostSettck_next h).2
    exact .of_result (by rw [ht])
  | hostShift n a b => exact execHostShift_effect h
  | hostUnknown bs =>
    have ht := (execHostUnknown_next h).2
    exact .of_result (by rw [ht])

/-- What a power-on writes, from a state in which a cycle may have been cut short. -/
def PoweredOn (s t : State) : Prop := ∃ u, Selected s u .por ∧ execPor u = .next t

/-- Everything a step that answers a next state can write: a power-on, an operation's effect, or a move. -/
theorem step_cases {s t : State} (h : step s = .next t) :
    PoweredOn s t ∨ (∃ i u, Selected s u i ∧ Taken s u ∧ Effect u i t) ∨ Moved s t := by
  rcases step_next h with ⟨i, u, hsel, -, hexec⟩ | hmoved
  · by_cases hi : i = .por
    · subst hi
      exact .inl ⟨u, hsel, hexec⟩
    · exact .inr (.inl ⟨i, u, hsel, hsel.taken hi, exec_effect hi hexec⟩)
  · exact .inr (.inr hmoved)

theorem PoweredOn.powerOns {s t : State} (h : PoweredOn s t) : t.powerOns = s.powerOns + 1 := by
  obtain ⟨u, hsel, hexec⟩ := h
  cases hexec
  have hu : u.powerOns = s.powerOns := (congrArg State.powerOns hsel :)
  exact congrArg (· + 1) hu

theorem PoweredOn.cfg {s t : State} (h : PoweredOn s t) : t.cfg = s.cfg := by
  obtain ⟨u, hsel, hexec⟩ := h
  cases hexec
  exact (congrArg State.cfg hsel :)

/-- A step with no power-on, seen in the counter (log 6). -/
theorem step_cases_of_no_powerOn {s t : State} (h : step s = .next t) (hp : t.powerOns = s.powerOns) :
    (∃ i u, Selected s u i ∧ Taken s u ∧ Effect u i t) ∨ Moved s t := by
  rcases step_cases h with hpor | hcases
  · have := hpor.powerOns
    omega
  · exact hcases

/-! ### The parts of the state an effect writes -/

section
variable {u t : State} {i : Instr} (h : Effect u i t)
include h

theorem Effect.cfg : t.cfg = u.cfg := by
  cases h with
  | accepted p n => rw [acceptHeader_eq]
  | cycled => rw [jtagCycle_eq]
  | hostSide _ _ hkept => exact hkept.cfg
  | _ => rfl

/-- An effect writes a flag only by the abort (R181). -/
theorem Effect.err : t.err = u.err ∨ ∃ x, t.err = u.err.set x := by
  cases h with
  | aborted _ x => exact .inr ⟨x, rfl⟩
  | accepted p n => rw [acceptHeader_eq]; exact .inl rfl
  | cycled => rw [jtagCycle_eq]; exact .inl rfl
  | hostSide _ _ hkept => exact .inl hkept.err
  | _ => exact .inl rfl

/-- An effect writes `bit_count` only by accepting a header (R22, R121). -/
theorem Effect.bitCount : t.bitCount = u.bitCount ∨ ∃ p n, i = .pktHeader p ∧ headerBitCount p = some n ∧
    byteCountOf n ≤ u.cfg.CAP ∧ t = u.acceptHeader n := by
  cases h with
  | accepted p n _ hn hcap => exact .inr ⟨p, n, rfl, hn, hcap, rfl⟩
  | cycled => rw [jtagCycle_eq]; exact .inl rfl
  | hostSide _ _ hkept => exact .inl hkept.bitCount
  | _ => exact .inl rfl

/-- An effect moves a pin only in a cycle of the pass, and then by the five events of that cycle (R141, R146). -/
theorem Effect.pins : PinsKept u t ∨ (u.phase = .shift ∧ u.i < u.bitCount.toNat ∧ t.i = u.i + 1 ∧
    t.pinTrace = u.pinTrace ++ cycleEvents (levelAt u.tdiBuf u.i) (levelAt u.tmsBuf u.i)
      (u.target.apply (levelAt u.tmsBuf u.i) (levelAt u.tdiBuf u.i)).2) := by
  cases h with
  | accepted p n => rw [acceptHeader_eq]; exact .inl ⟨rfl, rfl, rfl, rfl, rfl, rfl⟩
  | cycled hphase hi =>
    rw [jtagCycle_eq, Memory.getBit_eq, Memory.getBit_eq]
    exact .inr ⟨hphase, hi, rfl, rfl⟩
  | hostSide _ _ hkept => exact .inl hkept.pins
  | _ => exact .inl ⟨rfl, rfl, rfl, rfl, rfl, rfl⟩

end

theorem Err.set_keeps (e : Err) (x : EngineError) :
    (e.capacity = true → (e.set x).capacity = true) ∧ (e.shortPacket = true → (e.set x).shortPacket = true) ∧
    (e.shortHeader = true → (e.set x).shortHeader = true) := by
  refine ⟨fun h => ?_, fun h => ?_, fun h => ?_⟩ <;> simp [Err.set, h]

/-! ### The statements about single steps -/

/-- Settles O51: a power-on, an effect and a move each keep the parameters. -/
theorem parametersNeverChange : Obligations.ParametersNeverChange := by
  intro s t h
  rcases step_cases h with hpor | ⟨i, u, -, htaken, heff⟩ | hmoved
  · exact hpor.cfg
  · exact heff.cfg.trans htaken.engineKept.cfg
  · exact hmoved.engineKept.cfg

/-- Settles O26: without a power-on a flag is written by the abort alone, which only sets. -/
theorem errorFlagsAreSticky : Obligations.ErrorFlagsAreSticky := by
  intro s t h hp
  rcases step_cases_of_no_powerOn h hp with ⟨i, u, -, htaken, heff⟩ | hmoved
  · rw [← htaken.engineKept.err]
    rcases heff.err with he | ⟨x, he⟩
    · rw [he]; exact ⟨id, id, id⟩
    · rw [he]; exact Err.set_keeps u.err x
  · rw [hmoved.engineKept.err]; exact ⟨id, id, id⟩

/-- Settles O18: a move, and every effect but that of a cycle, keeps the pins. -/
theorem pinsMoveOnlyInCycles : Obligations.PinsMoveOnlyInCycles := by
  intro s t h hp
  rcases step_cases_of_no_powerOn h hp with ⟨i, u, -, htaken, heff⟩ | hmoved
  · have hpins := heff.pins
    rw [htaken.frame] at hpins
    exact hpins
  · exact .inl hmoved.engineKept.pins

theorem acceptHeader_phase (s : State) (n : Word32) :
    (s.acceptHeader n).phase = .receiveTms ∨ (s.acceptHeader n).phase = .shift := by
  rw [acceptHeader_eq]
  by_cases hn : byteCountOf n = 0
  · exact .inr (if_pos hn)
  · exact .inl (if_neg hn)

/-- Settles O27: the effect that writes `bit_count` is that of a header, the packet at the head of `rx_q`. -/
theorem bitCountIsWrittenOnlyByHeaders : Obligations.BitCountIsWrittenOnlyByHeaders := by
  intro s t h hp hne
  rcases step_cases_of_no_powerOn h hp with ⟨i, u, hsel, htaken, heff⟩ | hmoved
  · have hkept := htaken.engineKept
    rcases heff.bitCount with hb | ⟨p, n, rfl, hn, hcap, rfl⟩
    · exact absurd (hb.trans hkept.bitCount) hne
    · obtain ⟨hphase, hq, -, -⟩ := hsel
      obtain ⟨b0, b1, b2, b3, rest, rfl, rfl⟩ := headerBitCount_some hn
      have hvalue : (unle32 b0 b1 b2 b3).toNat = leValue b0 b1 b2 b3 := unle32_toNat b0 b1 b2 b3
      have hle : (unle32 b0 b1 b2 b3).toNat ≤ 8 * s.cfg.CAP := by
        rw [← hkept.cfg]
        exact (byteCountOf_le_iff _ _).mp hcap
      refine ⟨hphase, acceptHeader_phase u _, ?_, b0, b1, b2, b3, rest, ?_, ?_, hvalue ▸ hle⟩
      · rw [acceptHeader_eq]; exact hkept.err
      · rw [acceptHeader_eq]; exact hq
      · rw [acceptHeader_eq]; exact hvalue
  · exact absurd hmoved.engineKept.bitCount hne

/-- Settles O25: each value as `State.reset` lists it. -/
theorem resetLeavesTheStatedValues : Obligations.ResetLeavesTheStatedValues :=
  ⟨rfl, rfl, rfl, rfl, rfl, rfl, rfl⟩

end Sys2Proof.Machine
end

section
/-! PROOFS. The invariants of reachable states (R33): they are split into the buffers, the Engine's position and the
channels, each effect of an operation is shown to keep them, and from them no operation stops. -/

namespace Sys2Proof.Machine

/-! ### The channels and the command in flight -/

/-- The part of the invariants that speaks of the queues and of the command in flight (R7, R103, R107, R108). -/
structure ChannelsOk (cfg : Config) (rxQ txQ : List Packet) (flight : Option Flight) : Prop where
  inbound : ∀ p ∈ rxQ, p.length ≤ cfg.C
  outbound : ∀ q ∈ txQ, 1 ≤ q.length ∧ q.length ≤ cfg.C
  inFlight : ∀ f, flight = some f → byteCountOf f.bitCount ≤ cfg.CAP ∧ (∀ p ∈ f.unsent, p.length ≤ cfg.C) ∧
    (f.unsent = [] → f.tdo.length < byteCountOf f.bitCount)

theorem State.Inv.channels {s : State} (h : s.Inv) : ChannelsOk s.cfg s.rxQ s.txQ s.flight :=
  ⟨h.inbound, h.outbound, h.inFlight⟩

theorem ChannelsOk.drained {cfg : Config} {rxQ txQ : List Packet} {flight : Option Flight}
    (h : ChannelsOk cfg rxQ txQ flight) : ChannelsOk cfg [] [] flight :=
  ⟨List.forall_mem_nil _, List.forall_mem_nil _, h.inFlight⟩

/-- Every packet of a chunking holds at least one byte and at most `c` (R75). -/
theorem length_of_mem_chunk {c : Nat} (hc : 0 < c) {v : List Byte} {q : Packet} (hq : q ∈ chunk c v) :
    1 ≤ q.length ∧ q.length ≤ c := by
  obtain ⟨k, hk, rfl⟩ := List.mem_map.mp hq
  have hlt : (k + 1) * c ≤ v.length + c - 1 :=
    (Nat.le_div_iff_mul_le hc).mp (List.mem_range.mp hk)
  rw [Nat.succ_mul] at hlt
  rw [List.length_take, List.length_drop]
  omega

/-- A header packet is 4 bytes long, and 4 fit (R6); the others are packets of a chunking. -/
theorem length_of_mem_commandPackets {c : Nat} (hc : 4 ≤ c) {n : Word32} {a b : List Byte} {p : Packet}
    (hp : p ∈ commandPackets c n a b) : p.length ≤ c := by
  rcases List.mem_cons.mp hp with rfl | hp
  · exact hc
  · rcases List.mem_append.mp hp with hp | hp <;> exact (length_of_mem_chunk (by omega) hp).2

/-! ### The buffers of a command past its header -/

/-- A buffer that has been zero-filled: canonical, and 0 at and beyond `byte_count` (R33 items 5 and 6). -/
structure BufferOk (cap byteCount : Nat) (m : Memory) : Prop where
  zeroFilled : m.fill = .zero
  canonical : m.wf cap = true
  tail : ∀ a, byteCount ≤ a → m.peek a = 0

theorem BufferOk.of_zeroed (cap byteCount : Nat) : BufferOk cap byteCount Memory.zeroed :=
  ⟨rfl, rfl, fun _ _ => rfl⟩

theorem BufferOk.pokeBytes {cap byteCount a : Nat} {m : Memory} {bs : List Byte} (h : BufferOk cap byteCount m)
    (hcap : a + bs.length ≤ cap) (hcount : a + bs.length ≤ byteCount) :
    BufferOk cap byteCount (m.pokeBytes a bs) where
  zeroFilled := by rw [Memory.pokeBytes_fill, h.zeroFilled]
  canonical := Memory.wf_pokeBytes hcap h.canonical
  tail a' ha' := by
    rw [Memory.peek_pokeBytes, if_neg (by omega)]
    exact h.tail a' ha'

theorem BufferOk.setBit {cap byteCount j : Nat} {m : Memory} {v : Bit} (h : BufferOk cap byteCount m)
    (hcap : j / 8 < cap) (hcount : j / 8 < byteCount) : BufferOk cap byteCount (m.setBit j v) where
  zeroFilled := h.zeroFilled
  canonical := Memory.wf_setBit hcap h.canonical
  tail a ha := by
    rw [Memory.setBit, Memory.peek_poke, if_neg (by omega)]
    exact h.tail a ha

/-- The current command is within the capacity (R33 item 1, in bytes). -/
theorem State.Inv.byteCount_le {s : State} (h : s.Inv) : s.byteCount ≤ s.cfg.CAP :=
  (byteCountOf_le_iff _ _).mpr h.accepted

theorem State.Inv.bufferOk {s : State} (h : s.Inv) (hphase : s.phase ≠ .header) (b : BufId) :
    BufferOk s.cfg.CAP s.byteCount (s.buf b) :=
  ⟨(h.together b).mpr (h.filled hphase), h.canonical b, h.tail (h.filled hphase) b⟩

/-- A command past its header meets the invariants if its buffers, its position, its TDO bits and the channels do. -/
theorem State.Inv.of_bufferOk {t : State} (params : t.cfg.valid) (accepted : t.bitCount.toNat ≤ 8 * t.cfg.CAP)
    (bufs : ∀ b, BufferOk t.cfg.CAP t.byteCount (t.buf b))
    (position : t.receiving → 1 ≤ t.byteCount ∧ t.cfg.C ∣ t.offset ∧ t.offset < t.byteCount)
    (cycle : t.phase = .shift → t.i ≤ t.bitCount.toNat)
    (tdoTail : ∀ j, t.bitCount.toNat ≤ j → t.tdoBuf.getBit j = false)
    (unsampled : t.phase = .shift → ∀ j, t.i ≤ j → t.tdoBuf.getBit j = false)
    (unwritten : t.receiving → ∀ j, t.tdoBuf.getBit j = false)
    (channels : ChannelsOk t.cfg t.rxQ t.txQ t.flight) : t.Inv where
  params := params
  canonical b := (bufs b).canonical
  accepted := accepted
  position := position
  cycle := cycle
  fresh b hb := absurd (bufs b).zeroFilled hb
  together b := iff_of_true (bufs b).zeroFilled (bufs .tms).zeroFilled
  filled _ := (bufs .tms).zeroFilled
  tail _ b := (bufs b).tail
  tdoTail _ := tdoTail
  unsampled := unsampled
  unwritten := unwritten
  inbound := channels.inbound
  outbound := channels.outbound
  inFlight := channels.inFlight

/-! ### Steps that write no buffer -/

/-- The buffers, the count and the parameters are as they were, and the Engine stays where it is or is in `HEADER`,
where nothing is asked of its counters. -/
structure CommandKept (s t : State) : Prop where
  cfg : t.cfg = s.cfg
  bitCount : t.bitCount = s.bitCount
  bufs : t.tmsBuf = s.tmsBuf ∧ t.tdiBuf = s.tdiBuf ∧ t.tdoBuf = s.tdoBuf
  position : t.phase = .header ∨ (t.phase = s.phase ∧ t.offset = s.offset ∧ t.i = s.i)

theorem EngineKept.commandKept {s t : State} (h : EngineKept s t) : CommandKept s t :=
  ⟨h.cfg, h.bitCount, ⟨h.tmsBuf, h.tdiBuf, h.tdoBuf⟩, .inr ⟨h.phase, h.offset, h.i⟩⟩

theorem CommandKept.buf {s t : State} (h : CommandKept s t) (b : BufId) : t.buf b = s.buf b := by
  obtain ⟨htms, htdi, htdo⟩ := h.bufs
  cases b
  · exact htms
  · exact htdi
  · exact htdo

theorem CommandKept.byteCount {s t : State} (h : CommandKept s t) : t.byteCount = s.byteCount :=
  congrArg byteCountOf h.bitCount

theorem State.Inv.of_commandKept {s t : State} (h : s.Inv) (hk : CommandKept s t)
    (channels : ChannelsOk t.cfg t.rxQ t.txQ t.flight) : t.Inv := by
  obtain ⟨htms, -, htdo⟩ := hk.bufs
  have hbuf := hk.buf
  have hbc := hk.byteCount
  have engine : (t.receiving → 1 ≤ s.byteCount ∧ s.cfg.C ∣ t.offset ∧ t.offset < s.byteCount) ∧
      (t.phase = .shift → t.i ≤ s.bitCount.toNat) ∧ (t.phase ≠ .header → s.tmsBuf.fill = .zero) ∧
      (t.phase = .shift → ∀ j, t.i ≤ j → s.tdoBuf.getBit j = false) ∧
      (t.receiving → ∀ j, s.tdoBuf.getBit j = false) := by
    rcases hk.position with hheader | ⟨hphase, hoffset, hi⟩
    · simp [State.receiving, hheader]
    · rw [State.receiving, hphase, hoffset, hi]
      exact ⟨h.position, h.cycle, h.filled, h.unsampled, h.unwritten⟩
  obtain ⟨position, cycle, filled, unsampled, unwritten⟩ := engine
  exact {
    params := hk.cfg ▸ h.params
    canonical := fun b => by rw [hbuf, hk.cfg]; exact h.canonical b
    accepted := by rw [hk.bitCount, hk.cfg]; exact h.accepted
    position := by rw [hbc, hk.cfg]; exact position
    cycle := by rw [hk.bitCount]; exact cycle
    fresh := fun b => by rw [hbuf]; exact h.fresh b
    together := fun b => by rw [hbuf, htms]; exact h.together b
    filled := by rw [htms]; exact filled
    tail := fun hz b => by rw [hbuf, hbc]; exact h.tail (htms ▸ hz) b
    tdoTail := fun hz => by rw [htdo, hk.bitCount]; exact h.tdoTail (htms ▸ hz)
    unsampled := by rw [htdo]; exact unsampled
    unwritten := by rw [htdo]; exact unwritten
    inbound := channels.inbound
    outbound := channels.outbound
    inFlight := channels.inFlight }

/-- The invariants hold of the state an operation runs on. -/
theorem Taken.inv {s u : State} (h : s.Inv) (htaken : Taken s u) : u.Inv := by
  refine h.of_commandKept htaken.engineKept.commandKept ?_
  rw [htaken.frame]
  exact ⟨fun p hp => h.inbound p (htaken.inbound p hp), h.outbound, h.inFlight⟩

theorem Moved.inv {s t : State} (h : s.Inv) (hmoved : Moved s t) : t.Inv := by
  have hcfg := hmoved.engineKept.cfg
  refine h.of_commandKept hmoved.engineKept.commandKept ⟨fun p hp => ?_, fun q hq => ?_, fun f hf => ?_⟩
  · rw [hcfg]
    rcases hmoved.inbound with hrx | ⟨p', hp', hrx⟩
    · exact h.inbound p (hrx ▸ hp)
    · rw [hrx] at hp
      rcases List.mem_append.mp hp with hp | hp
      · exact h.inbound p hp
      · rw [List.mem_singleton.mp hp]
        rcases hp' with hle | ⟨g, hg, hmem⟩
        · exact hle
        · obtain ⟨-, hfit, -⟩ := h.inFlight g hg
          exact hfit p' hmem
  · rw [hcfg]
    rcases hmoved.outbound q hq with hq | ⟨p, hp, k, hk, rfl⟩
    · exact h.outbound q hq
    · have hlen := h.outbound p hp
      rw [List.length_drop]
      omega
  · rw [hcfg]
    rcases hmoved.inFlight f hf with hf | ⟨g, hg, hn, hsub, hmore⟩
    · exact h.inFlight f hf
    · obtain ⟨hcap, hfit, -⟩ := h.inFlight g hg
      exact ⟨hn ▸ hcap, fun p hp => hfit p (hsub p hp), hmore⟩

/-! ### Effects that write a buffer -/

theorem acceptHeader_inv {u : State} {n : Word32} (h : u.Inv) (hcap : byteCountOf n ≤ u.cfg.CAP) :
    (u.acceptHeader n).Inv := by
  have hblank : ∀ j, Memory.zeroed.getBit j = false := fun j => by simp [Memory.getBit_eq]
  rw [acceptHeader_eq]
  refine .of_bufferOk h.params ((byteCountOf_le_iff _ _).mp hcap) ?_ ?_ ?_ (fun j _ => hblank j)
    (fun _ j _ => hblank j) (fun _ => hblank) h.channels
  · intro b
    cases b <;> exact BufferOk.of_zeroed _ _
  · intro hr
    have hn : byteCountOf n ≠ 0 := fun hn => by simp [State.receiving, hn] at hr
    exact ⟨Nat.pos_of_ne_zero hn, Nat.dvd_zero _, Nat.pos_of_ne_zero hn⟩
  · intro hs
    have hn : byteCountOf n = 0 := by
      by_contra hn
      simp [hn] at hs
    simp [hn]

theorem buf_stored (u : State) (b b' : BufId) (p : Packet) :
    (u.stored b p).buf b' = if b = b' then (u.buf b).pokeBytes u.offset (p.take u.need) else u.buf b' := by
  cases b <;> cases b' <;> rfl

theorem Stores.receiving {u : State} {b : BufId} {p : Packet} (hs : Stores u b p) : u.receiving :=
  hs.receives.imp And.right And.right

theorem State.receiving.ne_header {u : State} (h : u.receiving) : u.phase ≠ .header := by
  rcases h with h | h <;> simp [h]

/-- Storing a payload packet keeps the three buffers, and the TDO buffer blank (R27). -/
theorem Stores.keeps {u : State} {b : BufId} {p : Packet} (h : u.Inv) (hs : Stores u b p) :
    (∀ b', BufferOk u.cfg.CAP u.byteCount ((u.stored b p).buf b')) ∧
    ∀ j, (u.stored b p).tdoBuf.getBit j = false := by
  have hbufs := h.bufferOk hs.receiving.ne_header
  have hlen : (p.take u.need).length = u.need := by
    rw [List.length_take]
    exact Nat.min_eq_left hs.enough
  have hneed : u.need ≤ u.byteCount - u.offset := Nat.min_le_right _ _
  obtain ⟨-, -, hlt⟩ := h.position hs.receiving
  refine ⟨fun b' => ?_, ?_⟩
  · rw [buf_stored]
    split
    · exact (hbufs b).pokeBytes (by rw [hlen]; exact hs.fits) (by omega)
    · exact hbufs b'
  · have htdo : (u.stored b p).tdoBuf = u.tdoBuf := by
      rcases hs.receives with ⟨rfl, -⟩ | ⟨rfl, -⟩ <;> rfl
    rw [htdo]
    exact h.unwritten hs.receiving

/-- After a stored packet the invariants hold wherever the Engine goes, if its new position is one. -/
theorem Stores.inv {u : State} {b : BufId} {p : Packet} (h : u.Inv) (hs : Stores u b p) (offset i : Nat)
    (phase : Phase) (hoffset : u.cfg.C ∣ offset ∧ offset < u.byteCount) (hi : phase = .shift → i ≤ u.bitCount.toNat) :
    State.Inv { u.stored b p with offset := offset, i := i, phase := phase } := by
  obtain ⟨hbufs, hblank⟩ := hs.keeps h
  exact .of_bufferOk h.params h.accepted hbufs (fun _ => ⟨(h.position hs.receiving).1, hoffset⟩) hi
    (fun j _ => hblank j) (fun _ j _ => hblank j) (fun _ => hblank) h.channels

theorem cycled_inv {u : State} (h : u.Inv) (hphase : u.phase = .shift) (hi : u.i < u.bitCount.toNat)
    (hcap : u.i / 8 < u.cfg.CAP) (d m v : Bit) :
    State.Inv { u.jtagCycle d m with tdoBuf := u.tdoBuf.setBit u.i v, i := u.i + 1 } := by
  have hbufs := h.bufferOk (by simp [hphase])
  have hcount : u.i / 8 < u.byteCount := by
    have hspec := byteCountOf_spec u.bitCount
    unfold State.byteCount
    omega
  have hclear : ∀ j, u.i + 1 ≤ j → (u.tdoBuf.setBit u.i v).getBit j = false := by
    intro j hj
    rw [Memory.getBit_setBit, if_neg (by omega)]
    exact h.unsampled hphase j (by omega)
  rw [jtagCycle_eq]
  refine .of_bufferOk h.params h.accepted ?_ h.position (fun _ => hi) (fun j hj => hclear j (hi.trans_le hj))
    (fun _ => hclear) (fun hr => ?_) h.channels
  · intro b
    cases b with
    | tms => exact hbufs .tms
    | tdi => exact hbufs .tdi
    | tdo => exact (hbufs .tdo).setBit hcap hcount
  · rcases hr with hr | hr <;> exact absurd (hphase.symm.trans hr) (by decide)

/-! ### Every step keeps the invariants -/

/-- Every effect of an operation keeps the invariants. -/
theorem Effect.inv {u t : State} {i : Instr} (h : u.Inv) (heff : Effect u i t) : t.Inv := by
  have hc : 0 < u.cfg.C := lt_of_lt_of_le (by decide) h.params
  cases heff with
  | aborted _ x => exact h.of_commandKept ⟨rfl, rfl, ⟨rfl, rfl, rfl⟩, .inl rfl⟩ h.channels
  | accepted p n _ _ hcap => exact acceptHeader_inv h hcap
  | storedMore _ b p hs hmore =>
    obtain ⟨-, hdvd, -⟩ := h.position hs.receiving
    exact hs.inv h _ u.i u.phase ⟨Nat.dvd_add hdvd (Nat.dvd_refl _), hmore⟩ h.cycle
  | tmsComplete p hs => exact hs.inv h 0 u.i .receiveTdi ⟨Nat.dvd_zero _, (h.position hs.receiving).1⟩ nofun
  | tdiComplete p hs =>
    exact hs.inv h 0 0 .shift ⟨Nat.dvd_zero _, (h.position hs.receiving).1⟩ fun _ => Nat.zero_le _
  | cycled hphase hi hcap => exact cycled_inv h hphase hi hcap _ _ _
  | returned =>
    refine h.of_commandKept ⟨rfl, rfl, ⟨rfl, rfl, rfl⟩, .inl rfl⟩ ⟨h.inbound, fun q hq => ?_, h.inFlight⟩
    exact (List.mem_append.mp hq).elim (h.outbound q) (length_of_mem_chunk hc)
  | xresetTaken => exact h.of_commandKept ⟨rfl, rfl, ⟨rfl, rfl, rfl⟩, .inl rfl⟩ h.channels.drained
  | hostSide _ _ hkept hrx htx hflight =>
    refine h.of_commandKept hkept.commandKept ?_
    rw [hkept.cfg, hrx, htx]
    refine ⟨h.inbound, h.outbound, fun f hf => ?_⟩
    rcases hflight f hf with hf | ⟨n, a, b, hcap, rfl⟩
    · exact h.inFlight f hf
    · exact ⟨hcap, fun p hp => length_of_mem_commandPackets h.params hp, nofun⟩

/-- A state with freshly powered-on buffers, in `HEADER` with nothing counted, meets the invariants if its
parameters and its channels do (R34). -/
theorem State.Inv.of_poweredOn {t : State} (params : t.cfg.valid) (n : Nat)
    (bufs : ∀ b, t.buf b = Memory.poweredOn n b) (hphase : t.phase = .header) (hcount : t.bitCount = 0)
    (channels : ChannelsOk t.cfg t.rxQ t.txQ t.flight) : t.Inv where
  params := params
  canonical b := by rw [bufs]; rfl
  accepted := by rw [hcount]; exact Nat.zero_le _
  position hr := absurd hphase hr.ne_header
  cycle hs := absurd (hphase.symm.trans hs) (by decide)
  fresh b _ := by rw [bufs]; rfl
  together b := by
    rw [bufs, show t.tmsBuf = _ from bufs .tms]
    exact iff_of_false nofun nofun
  filled hne := absurd hphase hne
  tail hz := absurd ((congrArg Memory.fill (bufs .tms)).symm.trans hz) nofun
  tdoTail hz := absurd ((congrArg Memory.fill (bufs .tms)).symm.trans hz) nofun
  unsampled hs := absurd (hphase.symm.trans hs) (by decide)
  unwritten hr := absurd hphase hr.ne_header
  inbound := channels.inbound
  outbound := channels.outbound
  inFlight := channels.inFlight

theorem PoweredOn.inv {s t : State} (h : s.Inv) (hpor : PoweredOn s t) : t.Inv := by
  have hcfg := hpor.cfg
  obtain ⟨u, hsel, hexec⟩ := hpor
  cases hexec
  have hflight : u.flight = s.flight := (congrArg State.flight hsel :)
  have hchannels : ChannelsOk u.cfg [] [] u.flight := by
    rw [show u.cfg = s.cfg from hcfg, hflight]
    exact h.channels.drained
  exact .of_poweredOn (hcfg ▸ h.params) u.powerOns (fun b => by cases b <;> rfl) rfl rfl hchannels

/-- Settles O48: a power-on, an effect of an operation and a move each keep the invariants. -/
theorem stepsKeepTheReachableInvariants : Obligations.StepsKeepTheReachableInvariants := by
  intro s t h hstep
  rcases step_cases hstep with hpor | ⟨i, u, -, htaken, heff⟩ | hmoved
  · exact hpor.inv h
  · exact heff.inv (htaken.inv h)
  · exact hmoved.inv h

/-- Settles O49: after reset the buffers are powered on, the queues are empty and no command is in flight. -/
theorem resetMeetsTheInvariants : Obligations.ResetMeetsTheInvariants :=
  .of_poweredOn (by decide) 0 (fun b => by cases b <;> rfl) rfl rfl ⟨nofun, nofun, nofun⟩

/-! ### From the invariants only waiting stops the machine -/

/-- A payload packet is stored inside the buffer or refused (R57). -/
theorem payload_ne_fault {u : State} (h : u.Inv) (hr : u.receiving) (b : BufId) (done : State → State) (p : Packet)
    (f : Fault) : u.payload b done p ≠ .fault f := by
  obtain ⟨-, -, hlt⟩ := h.position hr
  have hneed : u.need ≤ u.byteCount - u.offset := Nat.min_le_right _ _
  have hcap := h.byteCount_le
  have hfits : ¬ u.cfg.CAP < u.offset + u.need := by omega
  unfold State.payload
  rw [if_neg hfits]
  repeat' split
  all_goals nofun

theorem execPktHeader_ne_fault {u : State} (hphase : u.phase = .header) (p : Packet) (f : Fault) :
    execPktHeader p u ≠ .fault f := by
  unfold execPktHeader
  rw [if_pos hphase]
  repeat' split
  all_goals nofun

theorem execPktTms_ne_fault {u : State} (h : u.Inv) (hphase : u.phase = .receiveTms) (p : Packet) (f : Fault) :
    execPktTms p u ≠ .fault f := by
  unfold execPktTms
  rw [if_pos hphase]
  exact payload_ne_fault h (.inl hphase) _ _ p f

theorem execPktTdi_ne_fault {u : State} (h : u.Inv) (hphase : u.phase = .receiveTdi) (p : Packet) (f : Fault) :
    execPktTdi p u ≠ .fault f := by
  unfold execPktTdi
  rw [if_pos hphase]
  exact payload_ne_fault h (.inr hphase) _ _ p f

theorem execShiftCycle_ne_fault {u : State} (h : u.Inv) (hphase : u.phase = .shift) (hi : u.i < u.bitCount.toNat)
    (f : Fault) : execShiftCycle u ≠ .fault f := by
  have hcap : ¬ u.cfg.CAP ≤ u.i / 8 := by
    have hacc := h.accepted
    omega
  unfold execShiftCycle
  rw [if_pos ⟨hphase, hi⟩, if_neg hcap]
  nofun

theorem execShiftReturn_ne_fault {u : State} (h : u.Inv) (hphase : u.phase = .shift) (hi : u.i = u.bitCount.toNat)
    (f : Fault) : execShiftReturn u ≠ .fault f := by
  unfold execShiftReturn
  rw [if_pos ⟨hphase, hi⟩, if_neg (Nat.not_lt.mpr h.byteCount_le)]
  nofun

theorem execXreset_ne_fault (u : State) (f : Fault) : execXreset u ≠ .fault f := by
  unfold execXreset
  split <;> nofun

theorem execGetBit_ne_fault {buf : List Byte} {k : Nat} (hk : k / 8 < buf.length) (u : State) (f : Fault) :
    execGetBit buf k u ≠ .fault f := by
  unfold execGetBit listGetBit
  rw [List.getElem?_eq_getElem hk]
  nofun

theorem execSetBit_ne_fault {buf : List Byte} {k : Nat} (hk : k / 8 < buf.length) (v : Bit) (u : State) (f : Fault) :
    execSetBit buf k v u ≠ .fault f := by
  unfold execSetBit listSetBit
  rw [List.getElem?_eq_getElem hk]
  nofun

/-! A Host between commands runs any command it reads. -/

theorem execHostGetinfo_ne_fault {u : State} (hready : u.hostReady = true) (f : Fault) :
    execHostGetinfo u ≠ .fault f := by
  unfold execHostGetinfo
  rw [if_pos hready]
  nofun

theorem execHostSettck_ne_fault {u : State} (hready : u.hostReady = true) (n : Word32) (f : Fault) :
    execHostSettck n u ≠ .fault f := by
  unfold execHostSettck
  rw [if_pos hready]
  nofun

theorem execHostShift_ne_fault {u : State} (hready : u.hostReady = true) (n : Word32) (a b : List Byte) (f : Fault) :
    execHostShift n a b u ≠ .fault f := by
  unfold execHostShift
  rw [if_pos hready]
  split <;> nofun

theorem execHostUnknown_ne_fault {u : State} (hready : u.hostReady = true) (bs : List Byte) (f : Fault) :
    execHostUnknown bs u ≠ .fault f := by
  unfold execHostUnknown
  rw [if_pos hready]
  nofun

theorem Taken.hostReady {s u : State} (h : Taken s u) : u.hostReady = s.hostReady := by
  rw [h.frame]
  rfl

/-- No operation whose trigger holds stops, on operands the spec allows. -/
theorem Selected.exec_ne_fault {s u : State} {i : Instr} {f : Fault} (h : s.Inv) (hsel : Selected s u i)
    (hwf : i.wf u.cfg = true) : exec i u ≠ .fault f := by
  by_cases hpor : i = .por
  · subst hpor
    nofun
  have htaken := hsel.taken hpor
  have hu := htaken.inv h
  have hkept := htaken.engineKept
  cases i with
  | pktHeader p => exact execPktHeader_ne_fault (hkept.phase.trans hsel.1) p f
  | pktTms p => exact execPktTms_ne_fault hu (hkept.phase.trans hsel.1) p f
  | pktTdi p => exact execPktTdi_ne_fault hu (hkept.phase.trans hsel.1) p f
  | shiftCycle =>
    obtain ⟨hphase, hi, -⟩ := hsel
    exact execShiftCycle_ne_fault hu (hkept.phase.trans hphase) (by rw [hkept.i, hkept.bitCount]; exact hi) f
  | shiftReturn =>
    obtain ⟨hphase, hi, -⟩ := hsel
    exact execShiftReturn_ne_fault hu (hkept.phase.trans hphase) (by rw [hkept.i, hkept.bitCount]; exact hi) f
  | xreset => exact execXreset_ne_fault u f
  | por => exact absurd rfl hpor
  | byteCount _ | chunk _ | reassemble _ | shiftcmd _ _ _ => nofun
  | getBit buf k => exact execGetBit_ne_fault (of_decide_eq_true hwf) u f
  | setBit buf k v => exact execSetBit_ne_fault (of_decide_eq_true hwf) v u f
  | hostGetinfo => exact execHostGetinfo_ne_fault (htaken.hostReady.trans hsel.1) f
  | hostSettck n => exact execHostSettck_ne_fault (htaken.hostReady.trans hsel.1) n f
  | hostShift n a b => exact execHostShift_ne_fault (htaken.hostReady.trans hsel.1) n a b f
  | hostUnknown bs => exact execHostUnknown_ne_fault (htaken.hostReady.trans hsel.1) bs f

/-- A schedule entry never stops the machine. -/
theorem takeTurn_ne_stop (s : State) (tn : Turn) (rest : List Turn) (f : Fault) : takeTurn s tn rest ≠ .stop f := by
  have hget : ∀ {m : Option Fetched} {u : State}, m ≠ some (.stop f) → m.getD (.move u) ≠ .stop f := by
    intro m u hm
    cases m with
    | none => nofun
    | some m => exact fun he => hm (congrArg some he)
  cases tn with
  | engine => exact hget engineMove_not_stop
  | host => exact hget hostMove_not_stop
  | settle => exact hget autoMove_not_stop
  | send p =>
    simp only [takeTurn]
    split <;> nofun
  | _ => nofun

/-- The machine stops by itself only with nothing scheduled and no move of Engine or Host. -/
theorem fetch_stop {s : State} {f : Fault} (h : fetch s = .stop f) :
    s.agenda = [] ∧ engineMove s = none ∧ f = s.idleFault := by
  unfold fetch at h
  split at h
  · rename_i hagenda
    cases hauto : autoMove s with
    | some m =>
      rw [hauto, Option.getD_some] at h
      exact absurd (h ▸ hauto) autoMove_not_stop
    | none =>
      have hengine : engineMove s = none := by
        unfold autoMove at hauto
        split at hauto
        · cases hauto
        · assumption
      rw [hauto, Option.getD_none, idle] at h
      split at h
      · cases h
      · cases h
        exact ⟨hagenda, hengine, rfl⟩
  · exact absurd h (takeTurn_ne_stop s _ _ f)

/-- In a pass the Engine has a move while `i` is no further than `bit_count` (R140). -/
theorem engineMove_in_shift {s : State} (hphase : s.phase = .shift) (hi : s.i ≤ s.bitCount.toNat) :
    engineMove s ≠ none := by
  unfold engineMove
  rw [if_pos hphase]
  rcases Nat.lt_or_eq_of_le hi with hlt | heq
  · simp [decode, decodeInternal, State.control, hphase, hlt, Except.map]
  · simp [decode, decodeInternal, State.control, hphase, heq, Except.map]

/-- Outside a pass the Engine has no move only with nothing to take (R120, R180). -/
theorem engineMove_none {s : State} (hphase : s.phase ≠ .shift) (h : engineMove s = none) :
    s.rxQ = [] ∧ s.xresetHeld = false := by
  unfold engineMove at h
  rw [if_neg hphase] at h
  split at h
  · cases h
  · rename_i hx
    split at h
    · rename_i hq
      exact ⟨hq, by simpa using hx⟩
    · split at h <;> cases h

/-- A step stops where the operation it runs stops, or where nothing is left to run. -/
theorem step_fault {s : State} {f : Fault} (h : step s = .fault f) :
    (∃ i u, Selected s u i ∧ i.wf u.cfg = true ∧ exec i u = .fault f) ∨ fetch s = .stop f := by
  unfold step at h
  split at h
  · rename_i i u hfetch
    split at h
    · rename_i hwf
      exact .inl ⟨i, u, fetch_run hfetch, hwf, h⟩
    · cases h
  · cases h
  · cases h
  · rename_i hfetch
    cases h
    exact .inr hfetch

/-- Settles O52: no selected operation stops, so the stop is an idle one, and there the Engine is in no pass. -/
theorem onlyWaitingStopsTheMachine : Obligations.OnlyWaitingStopsTheMachine := by
  intro s f h hstep
  rcases step_fault hstep with ⟨i, u, hsel, hwf, hexec⟩ | hstop
  · exact absurd hexec (hsel.exec_ne_fault h hwf)
  · obtain ⟨hagenda, hengine, rfl⟩ := fetch_stop hstop
    have hphase : s.phase ≠ .shift := fun hp => engineMove_in_shift hp (h.cycle hp) hengine
    obtain ⟨hrx, hx⟩ := engineMove_none hphase hengine
    refine ⟨hagenda, hrx, hx, ?_⟩
    unfold State.idleFault
    cases hp : s.phase with
    | header => exact .inl ⟨rfl, rfl⟩
    | receiveTms => exact .inr ⟨rfl, .inl hp⟩
    | receiveTdi => exact .inr ⟨rfl, .inr hp⟩
    | shift => exact absurd hp hphase

end Sys2Proof.Machine
end

section
/-! PROOFS. The buffers and what crosses the pins (20_memory.md): the canonical form of the buffers as a one-step
invariant, what the decoding of packets does not depend on, and when the Target is clocked. -/

namespace Sys2Proof.Machine

/-! ### The canonical form is kept from every state (R50, R57) -/

/-- The three buffers are in canonical form. -/
def BuffersCanonical (s : State) : Prop := ∀ b, (s.buf b).wf s.cfg.CAP = true

theorem BuffersCanonical.of_commandKept {s t : State} (h : BuffersCanonical s) (hk : CommandKept s t) :
    BuffersCanonical t := by
  intro b
  rw [hk.buf, hk.cfg]
  exact h b

/-- A stored packet lies inside the buffer, as its guard says; the other buffers are as they were. -/
theorem Stores.canonical {u : State} {b : BufId} {p : Packet} (hs : Stores u b p) (h : BuffersCanonical u) :
    BuffersCanonical (u.stored b p) := by
  intro b'
  have hlen : (p.take u.need).length ≤ u.need := List.length_take_le _ _
  have hfits := hs.fits
  change ((u.stored b p).buf b').wf u.cfg.CAP = true
  rw [buf_stored]
  split
  · exact Memory.wf_pokeBytes (by omega) (h b)
  · exact h b'

/-- Only an accepted header, a stored packet and a cycle write a buffer. -/
theorem Effect.canonical {u t : State} {i : Instr} (heff : Effect u i t) (h : BuffersCanonical u) :
    BuffersCanonical t := by
  cases heff with
  | aborted | returned | xresetTaken => exact h.of_commandKept ⟨rfl, rfl, ⟨rfl, rfl, rfl⟩, .inl rfl⟩
  | hostSide _ _ hkept => exact h.of_commandKept hkept.commandKept
  | accepted p n =>
    rw [acceptHeader_eq]
    intro b
    cases b <;> exact Memory.zeroed_wf _
  | storedMore _ b p hs => exact hs.canonical h
  | tmsComplete p hs => exact hs.canonical h
  | tdiComplete p hs => exact hs.canonical h
  | cycled _ _ hcap =>
    rw [jtagCycle_eq]
    intro b
    cases b with
    | tms => exact h .tms
    | tdi => exact h .tdi
    | tdo => exact Memory.wf_setBit hcap (h .tdo)

theorem PoweredOn.canonical {s t : State} (hpor : PoweredOn s t) : BuffersCanonical t := by
  obtain ⟨u, -, hexec⟩ := hpor
  cases hexec
  intro b
  cases b <;> exact Memory.poweredOn_wf _ _ _

/-- Settles O50: a power-on leaves blank buffers, an effect keeps the form, a move writes no buffer. -/
theorem buffersStayCanonical : Obligations.BuffersStayCanonical := by
  intro s t h hstep
  have hs : BuffersCanonical s := h
  rcases step_cases hstep with hpor | ⟨i, u, -, htaken, heff⟩ | hmoved
  · exact hpor.canonical
  · exact heff.canonical (hs.of_commandKept htaken.engineKept.commandKept)
  · exact hs.of_commandKept hmoved.engineKept.commandKept

/-! ### The bytes of a payload packet decide nothing but buffer contents (R63) -/

/-- The two states differ in the contents of their buffers at most. -/
def AgreeButBuffers (t u : State) : Prop := u = { t with tmsBuf := u.tmsBuf, tdiBuf := u.tdiBuf, tdoBuf := u.tdoBuf }

theorem agreeButBuffers_stored (s : State) (b : BufId) (p q : Packet) (offset : Nat) :
    AgreeButBuffers { s.stored b p with offset := offset } { s.stored b q with offset := offset } := rfl

/-- Whether a payload packet is refused is a question of its length (R72). -/
theorem badPayload_congr (s : State) {p q : Packet} (hlen : p.length = q.length) : s.badPayload p = s.badPayload q := by
  unfold State.badPayload
  rw [hlen]

/-- Packets of one length take the same branch of the reception, and each branch differs in the stored bytes alone, if
the exit at the end of a vector asks nothing of the buffers. -/
theorem payload_agreeButBuffers {s t u : State} {b : BufId} {done : State → State} {p q : Packet}
    (hdone : ∀ v w, AgreeButBuffers v w → AgreeButBuffers (done v) (done w)) (hlen : p.length = q.length)
    (ht : s.payload b done p = .next t) (hu : s.payload b done q = .next u) : AgreeButBuffers t u := by
  unfold State.payload at ht hu
  rw [badPayload_congr s hlen] at ht
  by_cases hbad : s.badPayload q = true
  · rw [if_pos hbad] at ht hu
    cases ht; cases hu; rfl
  rw [if_neg hbad] at ht hu
  by_cases hcap : s.cfg.CAP < s.offset + s.need
  · rw [if_pos hcap] at ht
    cases ht
  rw [if_neg hcap] at ht hu
  by_cases hlast : s.byteCount ≤ s.offset + s.cfg.C
  · rw [if_pos hlast] at ht hu
    cases ht; cases hu
    exact hdone _ _ (agreeButBuffers_stored s b p q 0)
  · rw [if_neg hlast] at ht hu
    cases ht; cases hu
    exact agreeButBuffers_stored s b p q _

theorem execPktTms_agreeButBuffers {s t u : State} {p q : Packet} (hlen : p.length = q.length)
    (ht : execPktTms p s = .next t) (hu : execPktTms q s = .next u) : AgreeButBuffers t u := by
  refine payload_agreeButBuffers (fun v w h => ?_) hlen (execPktTms_next ht).2 (execPktTms_next hu).2
  unfold AgreeButBuffers
  rw [h]

theorem execPktTdi_agreeButBuffers {s t u : State} {p q : Packet} (hlen : p.length = q.length)
    (ht : execPktTdi p s = .next t) (hu : execPktTdi q s = .next u) : AgreeButBuffers t u := by
  refine payload_agreeButBuffers (fun v w h => ?_) hlen (execPktTdi_next ht).2 (execPktTdi_next hu).2
  unfold AgreeButBuffers
  rw [h]

theorem AgreeButBuffers.decoding {t u : State} (h : AgreeButBuffers t u) :
    t.phase = u.phase ∧ t.offset = u.offset ∧ t.bitCount = u.bitCount ∧ t.err = u.err :=
  ⟨(congrArg State.phase h.symm :), (congrArg State.offset h.symm :), (congrArg State.bitCount h.symm :),
    (congrArg State.err h.symm :)⟩

/-- Only a header, or a power-on, writes `bit_count` (R22). -/
theorem exec_keeps_bitCount {i : Instr} {s t : State} (h : exec i s = .next t) (hpor : i ≠ .por)
    (hheader : ∀ p, i ≠ .pktHeader p) : t.bitCount = s.bitCount := by
  rcases (exec_effect hpor h).bitCount with hb | ⟨p, _, hi, -⟩
  · exact hb
  · exact absurd hi (hheader p)

/-- Settles O12: the two next states differ in buffer contents at most, and payload packets do not write `bit_count`. -/
theorem payloadBytesNeverDecideDecoding : Obligations.PayloadBytesNeverDecideDecoding := by
  intro s t u p q hlen
  refine ⟨fun ht hu => ?_, fun ht hu => ?_⟩
  · obtain ⟨hphase, hoffset, -, herr⟩ := (execPktTms_agreeButBuffers hlen ht hu).decoding
    exact ⟨hphase, hoffset, exec_keeps_bitCount ht nofun nofun, exec_keeps_bitCount hu nofun nofun, herr⟩
  · obtain ⟨hphase, hoffset, -, herr⟩ := (execPktTdi_agreeButBuffers hlen ht hu).decoding
    exact ⟨hphase, hoffset, exec_keeps_bitCount ht nofun nofun, exec_keeps_bitCount hu nofun nofun, herr⟩

/-! ### An accepted header forgets the buffers (R64) -/

/-- A header of at least four bytes within capacity is accepted (R121). -/
theorem exec_pktHeader_accepts {s : State} {p : Packet} {n : Word32} (hphase : s.phase = .header)
    (hn : headerBitCount p = some n) (hcap : byteCountOf n ≤ s.cfg.CAP) :
    exec (.pktHeader p) s = .next (s.acceptHeader n) := by
  change execPktHeader p s = _
  unfold execPktHeader
  rw [if_pos hphase, hn]
  exact if_neg (Nat.not_lt.mpr hcap)

theorem acceptHeader_forgets_buffers (s : State) (n : Word32) (m1 m2 m3 : Memory) :
    State.acceptHeader { s with tmsBuf := m1, tdiBuf := m2, tdoBuf := m3 } n = s.acceptHeader n := by
  rw [acceptHeader_eq, acceptHeader_eq]

/-- Settles O13: either way the header is accepted, and the zero fill leaves nothing of the old buffers. -/
theorem acceptedHeaderHidesOldVectors : Obligations.AcceptedHeaderHidesOldVectors := by
  intro s b0 b1 b2 b3 rest m1 m2 m3 hphase hvalue
  have hcap : byteCountOf (unle32 b0 b1 b2 b3) ≤ s.cfg.CAP := by
    rw [byteCountOf_le_iff, unle32_toNat]
    exact hvalue
  have hn : headerBitCount (b0 :: b1 :: b2 :: b3 :: rest) = some (unle32 b0 b1 b2 b3) := rfl
  rw [exec_pktHeader_accepts hphase hn hcap, ← acceptHeader_forgets_buffers s _ m1 m2 m3]
  exact exec_pktHeader_accepts (s := { s with tmsBuf := m1, tdiBuf := m2, tdoBuf := m3 }) hphase hn hcap

/-! ### The Target's clock (R56, R147) -/

theorem risingEdge_iff (s : State) (p : Pin) (b : Bit) :
    s.risingEdge p b = true ↔ p = .tck ∧ b = true ∧ s.tck = false := by
  simp [State.risingEdge, and_assoc]

/-- On a rising edge the Target latches the levels on TMS and TDI and drives its answer. -/
theorem pinWrite_of_risingEdge {s : State} {p : Pin} {b : Bit} (h : s.risingEdge p b = true) :
    (s.pinWrite p b).target = (s.target.apply s.tms s.tdi).1 ∧
    (s.pinWrite p b).tdo = (s.target.apply s.tms s.tdi).2 :=
  ⟨if_pos h, if_pos h⟩

theorem pinWrite_of_not_risingEdge {s : State} {p : Pin} {b : Bit} (h : ¬ s.risingEdge p b = true) :
    (s.pinWrite p b).target = s.target ∧ (s.pinWrite p b).tdo = s.tdo :=
  ⟨if_neg h, if_neg h⟩

/-- Settles O19: a pin write asks for the rising edge alone, and a sample is defined to extend the trace. -/
theorem targetIsClockedByRisingEdges : Obligations.TargetIsClockedByRisingEdges := by
  refine ⟨fun s hlow => ?_, fun s p b hno => ?_, fun s => rfl⟩
  · exact pinWrite_of_risingEdge ((risingEdge_iff s .tck true).mpr ⟨rfl, rfl, hlow⟩)
  · exact pinWrite_of_not_risingEdge (mt (risingEdge_iff s p b).mp hno)

end Sys2Proof.Machine
end

section
/-! PROOFS. The encodings (30_encoding.md): the decoder gives back every operation from the event that carries it, and
a step runs the operation the decoder selects. -/

namespace Sys2Proof.Machine

/-! ### The texts and parameters of the TCP commands (R78) -/

theorem decodeSettck_le32 (period : Word32) (rest : List Byte) :
    decodeSettck (le32 period ++ rest) = .ok (.hostSettck period, rest) := by
  simp only [le32, List.cons_append, List.nil_append, decodeSettck, unle32_le32]

theorem decodeShift_le32 (cap : Nat) (n : Word32) (rest : List Byte) :
    decodeShift cap (le32 n ++ rest) =
      if cap < byteCountOf n then .ok (.hostShift n [] [], rest)
      else if rest.length < 2 * byteCountOf n then .error .awaitingBytes
      else .ok (.hostShift n (rest.take (byteCountOf n)) ((rest.drop (byteCountOf n)).take (byteCountOf n)),
        rest.drop (2 * byteCountOf n)) := by
  simp only [le32, List.cons_append, List.nil_append, decodeShift, unle32_le32]

/-- A command over capacity is known by its `bit_count` alone (R108; log 24). -/
theorem decodeShift_overCapacity {cap : Nat} {n : Word32} (rest : List Byte) (hcap : cap < byteCountOf n) :
    decodeShift cap (le32 n ++ rest) = .ok (.hostShift n [] [], rest) := by
  rw [decodeShift_le32, if_pos hcap]

/-- Within capacity both vectors are read, TMS first (R103). -/
theorem decodeShift_vectors {cap : Nat} {n : Word32} {tms tdi : List Byte} (rest : List Byte)
    (hcap : byteCountOf n ≤ cap) (htms : tms.length = byteCountOf n) (htdi : tdi.length = byteCountOf n) :
    decodeShift cap (le32 n ++ (tms ++ (tdi ++ rest))) = .ok (.hostShift n tms tdi, rest) := by
  have hlen : ¬ (tms ++ (tdi ++ rest)).length < 2 * byteCountOf n := by
    simp only [List.length_append]
    omega
  rw [decodeShift_le32, if_neg (Nat.not_lt.mpr hcap), if_neg hlen, List.take_left' htms, List.drop_left' htms,
    List.take_left' htdi, Nat.two_mul, ← List.drop_drop, List.drop_left' htms, List.drop_left' htdi]

/-! No text begins another, so the text alone tells the three known commands apart. -/

theorem decodeTcp_getinfo (cap : Nat) (rest : List Byte) :
    decodeTcp cap (getinfoText ++ rest) = .ok (.hostGetinfo, rest) := rfl

theorem decodeTcp_settck (cap : Nat) (rest : List Byte) :
    decodeTcp cap (settckText ++ rest) = decodeSettck rest := rfl

theorem decodeTcp_shift (cap : Nat) (rest : List Byte) :
    decodeTcp cap (shiftText ++ rest) = decodeShift cap rest := rfl

theorem isPrefixOf?_eq_none {t bs : List Byte} (h : t.isPrefixOf bs = false) : t.isPrefixOf? bs = none := by
  rw [← Option.not_isSome_iff_eq_none, List.isSome_isPrefixOf?_eq_isPrefixOf, h]
  exact Bool.false_ne_true

/-- In an unknown stream none of the three texts is found (R104). -/
theorem isPrefixOf?_of_isUnknown {seen t : List Byte} (h : isUnknown seen = true)
    (ht : t ∈ [getinfoText, settckText, shiftText]) : t.isPrefixOf? seen = none := by
  have hno := List.all_eq_true.mp h t ht
  simp only [Bool.and_eq_true, Bool.not_eq_true'] at hno
  exact isPrefixOf?_eq_none hno.1

theorem decodeTcp_unknown (cap : Nat) {seen : List Byte} (h : isUnknown seen = true) :
    decodeTcp cap seen = .ok (.hostUnknown seen, []) := by
  unfold decodeTcp
  rw [isPrefixOf?_of_isUnknown h (by simp), isPrefixOf?_of_isUnknown h (by simp),
    isPrefixOf?_of_isUnknown h (by simp)]
  exact if_pos h

/-! ### Decoding undoes encoding -/

theorem decodeTcp_encodeTcp_settck (cap : Nat) (period : Word32) :
    decodeTcp cap (encodeTcp (.hostSettck period)) = .ok (.hostSettck period, []) := by
  change decodeTcp cap (settckText ++ (le32 period ++ [])) = _
  rw [decodeTcp_settck, decodeSettck_le32]

theorem decodeTcp_encodeTcp_shift {cfg : Config} {n : Word32} {tms tdi : List Byte}
    (hwf : (Instr.hostShift n tms tdi).wf cfg = true) :
    decodeTcp cfg.CAP (encodeTcp (.hostShift n tms tdi)) = .ok (.hostShift n tms tdi, []) := by
  have hbytes : encodeTcp (.hostShift n tms tdi) = shiftText ++ (le32 n ++ (tms ++ (tdi ++ []))) := by
    simp only [encodeTcp, List.append_assoc, List.append_nil]
  rw [hbytes, decodeTcp_shift]
  by_cases hcap : byteCountOf n ≤ cfg.CAP
  · simp only [Instr.wf, if_pos hcap, Bool.and_eq_true, decide_eq_true_eq] at hwf
    exact decodeShift_vectors [] hcap hwf.1 hwf.2
  · simp only [Instr.wf, if_neg hcap, Bool.and_eq_true, List.isEmpty_iff] at hwf
    obtain ⟨rfl, rfl⟩ := hwf
    exact decodeShift_overCapacity [] (Nat.not_le.mp hcap)

/-- A packet the transport carries is the operation of the Engine's state (R70, R81, R120). -/
theorem decode_packetIn {cfg : Config} {ctl : Control} {p : Packet} (hlen : p.length ≤ cfg.C) :
    (ctl.phase = .header → decode cfg ctl (.packetIn p) = .ok (.pktHeader p, [])) ∧
    (ctl.phase = .receiveTms → decode cfg ctl (.packetIn p) = .ok (.pktTms p, [])) ∧
    (ctl.phase = .receiveTdi → decode cfg ctl (.packetIn p) = .ok (.pktTdi p, [])) := by
  have hfits : ¬ cfg.C < p.length := Nat.not_lt.mpr hlen
  refine ⟨fun hphase => ?_, fun hphase => ?_, fun hphase => ?_⟩ <;>
    simp only [decode, decodePacket, if_neg hfits, hphase, Except.map]

/-- Settles O46: a packet is selected by the state it is encoded with, a command by its text; the other events name
their operation. -/
theorem decodeUndoesEncode : Obligations.DecodeUndoesEncode := by
  intro cfg i hwf
  cases i with
  | pktHeader p =>
    obtain ⟨hheader, -, -⟩ := decode_packetIn (ctl := Control.at .header) (of_decide_eq_true hwf)
    exact hheader rfl
  | pktTms p =>
    obtain ⟨-, htms, -⟩ := decode_packetIn (ctl := Control.at .receiveTms) (of_decide_eq_true hwf)
    exact htms rfl
  | pktTdi p =>
    obtain ⟨-, -, htdi⟩ := decode_packetIn (ctl := Control.at .receiveTdi) (of_decide_eq_true hwf)
    exact htdi rfl
  | shiftCycle | shiftReturn | xreset | por => rfl
  | byteCount _ | getBit _ _ | setBit _ _ _ | chunk _ | reassemble _ | shiftcmd _ _ _ => rfl
  | hostGetinfo => rfl
  | hostSettck period => exact decodeTcp_encodeTcp_settck cfg.CAP period
  | hostShift n tms tdi => exact decodeTcp_encodeTcp_shift hwf
  | hostUnknown seen => exact decodeTcp_unknown cfg.CAP hwf

/-- Settles O47: the decoder evaluated on the bytes. -/
theorem spelledOutEncodingsDecode : Obligations.SpelledOutEncodingsDecode :=
  ⟨rfl, rfl, rfl, rfl, rfl⟩

/-! ### The step runs the operation that is selected (R70, R120, R140) -/

theorem step_of_fetch {s u : State} {i : Instr} (hfetch : fetch s = .run i u) (hwf : i.wf u.cfg = true) :
    step s = exec i u := by
  simp only [step, hfetch, if_pos hwf]

/-- With nothing scheduled the Engine goes first (log 2). -/
theorem fetch_of_engineMove {s : State} {m : Fetched} (hagenda : s.agenda = []) (hm : engineMove s = some m) :
    fetch s = m := by
  simp only [fetch, hagenda, autoMove, hm, Option.getD_some]

/-- The packet at the head of `rx_q` is consumed by the operation it decodes to (R32, R120). -/
theorem engineMove_packet {s : State} {p : Packet} {ps : List Packet} {i : Instr} (hphase : s.phase ≠ .shift)
    (hx : s.xresetHeld = false) (hrx : s.rxQ = p :: ps) (hdec : decode s.cfg s.control (.packetIn p) = .ok (i, [])) :
    engineMove s = some (.run i { s with rxQ := ps }) := by
  simp only [engineMove, if_neg hphase, hx, Bool.false_eq_true, if_false, hrx, hdec]

theorem step_packet {s : State} {p : Packet} {ps : List Packet} (hs : s.undisturbed) (hrx : s.rxQ = p :: ps)
    (hlen : p.length ≤ s.cfg.C) :
    (s.phase = .header → step s = exec (.pktHeader p) { s with rxQ := ps }) ∧
    (s.phase = .receiveTms → step s = exec (.pktTms p) { s with rxQ := ps }) ∧
    (s.phase = .receiveTdi → step s = exec (.pktTdi p) { s with rxQ := ps }) := by
  obtain ⟨hagenda, hx⟩ := hs
  obtain ⟨hheader, htms, htdi⟩ := decode_packetIn (ctl := s.control) hlen
  have hrun : ∀ i, s.phase ≠ .shift → decode s.cfg s.control (.packetIn p) = .ok (i, []) → i.wf s.cfg = true →
      step s = exec i { s with rxQ := ps } := fun i hphase hdec hwf =>
    step_of_fetch (fetch_of_engineMove hagenda (engineMove_packet hphase hx hrx hdec)) hwf
  refine ⟨fun hp => ?_, fun hp => ?_, fun hp => ?_⟩
  · exact hrun _ (by simp [hp]) (hheader hp) (decide_eq_true hlen)
  · exact hrun _ (by simp [hp]) (htms hp) (decide_eq_true hlen)
  · exact hrun _ (by simp [hp]) (htdi hp) (decide_eq_true hlen)

theorem step_shiftCycle {s : State} (hagenda : s.agenda = []) (hphase : s.phase = .shift)
    (hi : s.i < s.bitCount.toNat) : step s = exec .shiftCycle s := by
  refine step_of_fetch (fetch_of_engineMove hagenda ?_) rfl
  simp only [engineMove, hphase, if_true, decode, decodeInternal, State.control, if_pos hi, Except.map]

theorem step_shiftReturn {s : State} (hagenda : s.agenda = []) (hphase : s.phase = .shift)
    (hi : s.i = s.bitCount.toNat) : step s = exec .shiftReturn s := by
  refine step_of_fetch (fetch_of_engineMove hagenda ?_) rfl
  simp only [engineMove, hphase, if_true, decode, decodeInternal, State.control, if_neg (Nat.not_lt.mpr hi.ge),
    if_pos hi, Except.map]

/-- An Engine outside a pass with no packet and no XRESET to take waits. -/
theorem engineMove_waits {s : State} (hphase : s.phase ≠ .shift) (hx : s.xresetHeld = false) (hrx : s.rxQ = []) :
    engineMove s = none := by
  simp only [engineMove, if_neg hphase, hx, Bool.false_eq_true, if_false, hrx]

/-- A Host between commands runs the one it has read, whose bytes are taken (R105, R109). -/
theorem hostMove_command {s : State} {i : Instr} {rest : List Byte} (hready : s.hostReady = true)
    (hdec : decode s.cfg s.control (.tcp s.tcpIn) = .ok (i, rest)) :
    hostMove s = some (.run i { s with tcpIn := rest }) := by
  obtain ⟨hopen, hflight, hdrain, hx⟩ := (hostReady_iff s).mp hready
  unfold hostMove
  rw [if_neg (by simp [hopen]), hflight]
  simp only [hdrain, ne_eq, not_true_eq_false, if_false, hx, Bool.false_eq_true, hdec]

theorem step_command {s : State} {i : Instr} {rest : List Byte} (hs : s.undisturbed) (hphase : s.phase ≠ .shift)
    (hrx : s.rxQ = []) (hready : s.hostReady = true)
    (hdec : decode s.cfg s.control (.tcp s.tcpIn) = .ok (i, rest)) (hwf : i.wf s.cfg = true) :
    step s = exec i { s with tcpIn := rest } := by
  obtain ⟨hagenda, hx⟩ := hs
  refine step_of_fetch ?_ hwf
  simp only [fetch, hagenda, autoMove, engineMove_waits hphase hx hrx, hostMove_command hready hdec, Option.getD_some]

/-- A scheduled entry that selects an operation whatever the agents could do (a call, a reset) runs it. -/
theorem step_turn {s u : State} {tn : Turn} {rest : List Turn} {i : Instr} (hagenda : s.agenda = tn :: rest)
    (hturn : takeTurn s tn rest = .run i u) (hwf : i.wf u.cfg = true) : step s = exec i u := by
  refine step_of_fetch ?_ hwf
  simp only [fetch, hagenda, hturn]

/-- Settles O45: each clause is the selection of its case: a packet, the pass, a command, a call, the two resets and a
power-on inside a cycle. -/
theorem stepRunsTheSelectedOperation : Obligations.StepRunsTheSelectedOperation :=
  ⟨fun _ _ _ hs hrx hlen => step_packet hs hrx hlen,
    fun _ hagenda hphase => ⟨step_shiftCycle hagenda hphase, step_shiftReturn hagenda hphase⟩,
    fun _ _ _ hs hphase hrx hready hdec hwf => step_command hs hphase hrx hready hdec hwf,
    fun _ _ _ hagenda hwf => step_turn hagenda rfl hwf,
    fun _ _ hagenda => step_turn hagenda rfl rfl,
    fun _ _ hagenda => step_turn hagenda rfl rfl,
    fun _ _ _ hagenda => step_turn hagenda rfl rfl⟩

end Sys2Proof.Machine
end

section
/-! PROOFS. The cut of a vector into packets (R75, R76), and the packets of a command as the script expands them and
as the Host sends them (R84, R106). -/

namespace Sys2Proof.Machine

/-! ### CHUNK and REASSEMBLE (R75, R76) -/

/-- Whatever holds of the empty cut, and of a cut with one packet more taken from the front, holds of every cut. -/
theorem chunk_induction {c : Nat} (hc : 0 < c) {P : List Byte → List Packet → Prop} (nil : P [] [])
    (cons : ∀ v, v ≠ [] → P (v.drop c) (chunk c (v.drop c)) → P v (v.take c :: chunk c (v.drop c)))
    (v : List Byte) : P v (chunk c v) := by
  induction hlen : v.length using Nat.strong_induction_on generalizing v with
  | _ len ih =>
    by_cases hv : v = []
    · subst hv
      rw [chunk_nil c hc]
      exact nil
    · rw [chunk_step c v hc hv]
      have hpos := List.length_pos_iff.mpr hv
      exact cons v hv (ih _ (by rw [List.length_drop]; omega) _ rfl)

theorem flatten_chunk {c : Nat} (hc : 0 < c) (v : List Byte) : (chunk c v).flatten = v := by
  refine chunk_induction (P := fun v ps => ps.flatten = v) hc rfl (fun v _ ih => ?_) v
  rw [List.flatten_cons, ih, List.take_append_drop]

theorem length_chunk (c : Nat) (v : List Byte) : (chunk c v).length = ceilDiv v.length c := by
  rw [chunk, List.length_map, List.length_range]

theorem le_mul_ceilDiv {c : Nat} (hc : 0 < c) (n : Nat) : n ≤ c * ceilDiv n c ∧ c * ceilDiv n c < n + c := by
  have hle : c * ceilDiv n c ≤ n + c - 1 := Nat.mul_div_le _ _
  have hlt : n + c - 1 < c * ceilDiv n c + c := Nat.lt_mul_div_succ _ hc
  omega

theorem length_of_mem_dropLast_chunk {c : Nat} (hc : 0 < c) (v : List Byte) :
    ∀ q ∈ (chunk c v).dropLast, q.length = c := by
  refine chunk_induction (P := fun _ ps => ∀ q ∈ ps.dropLast, q.length = c) hc (List.forall_mem_nil _)
    (fun v _ ih => ?_) v
  by_cases hlast : chunk c (v.drop c) = []
  · rw [hlast]
    exact List.forall_mem_nil _
  · rw [List.dropLast_cons_of_ne_nil hlast]
    refine List.forall_mem_cons.mpr ⟨?_, ih⟩
    have hrest : v.drop c ≠ [] := fun h => hlast (by rw [h, chunk_nil c hc])
    have hpos := List.length_pos_iff.mpr hrest
    rw [List.length_drop] at hpos
    rw [List.length_take]
    omega

theorem isChunking_chunk {c : Nat} (hc : 0 < c) (v : List Byte) : IsChunking c v (chunk c v) where
  joined := flatten_chunk hc v
  enough := by rw [length_chunk]; exact (le_mul_ceilDiv hc _).1
  fewest := by rw [length_chunk]; exact (le_mul_ceilDiv hc _).2
  full := length_of_mem_dropLast_chunk hc v
  bounded _ hq := length_of_mem_chunk hc hq

theorem C_pos_of_valid {cfg : Config} (h : cfg.valid) : 0 < cfg.C := lt_of_lt_of_le (by decide) h

/-- Settles O31: the result is `chunk`, by its induction. -/
theorem chunkCutsTheVector : Obligations.ChunkCutsTheVector := fun s v hvalid =>
  ⟨chunk s.cfg.C v, rfl, isChunking_chunk (C_pos_of_valid hvalid) v⟩

theorem exec_reassemble (s : State) (ps : List Packet) :
    exec (.reassemble ps) s = .next { s with result := .bytes ps.flatten } := rfl

/-- Settles O32: the result is the concatenation, and the packets of a cut join to the vector. -/
theorem reassembleUndoesChunk : Obligations.ReassembleUndoesChunk := by
  refine ⟨exec_reassemble, fun s t v hvalid => ⟨chunk s.cfg.C v, rfl, ?_⟩⟩
  rw [exec_reassemble, flatten_chunk (C_pos_of_valid hvalid)]

/-! ### The Host sends what the script expands (R84, R106) -/

/-- A scheduled Host with a packet to send sends it, whatever the Engine is doing (R103). -/
theorem step_hostSend {s : State} {f : Flight} {p : Packet} {ps : List Packet} {rest : List Turn}
    (hopen : s.session = .opened) (hflight : s.flight = some f) (hunsent : f.unsent = p :: ps)
    (hagenda : s.agenda = .host :: rest) : step s = .next (State.hostSend { s with agenda := rest } f p ps) := by
  have hmove : hostMove { s with agenda := rest } = some (.move (State.hostSend { s with agenda := rest } f p ps)) := by
    simp only [hostMove, hopen, reduceCtorEq, if_false, hflight, hunsent]
  simp only [step, fetch, hagenda, takeTurn, hmove, Option.getD_some]

/-- With more to send the command stays in flight (R103, R106). -/
theorem step_hostSend_more {s : State} {f : Flight} {p : Packet} {ps : List Packet} {rest : List Turn}
    (hopen : s.session = .opened) (hflight : s.flight = some f) (hunsent : f.unsent = p :: ps) (hmore : ps ≠ [])
    (hagenda : s.agenda = .host :: rest) :
    step s = .next { s with agenda := rest, rxQ := s.rxQ ++ [p], flight := some { f with unsent := ps } } := by
  rw [step_hostSend hopen hflight hunsent hagenda, State.hostSend, hostAdvance_unsent hmore]
  rfl

/-- A Host given a move for each of the packets it has to send sends them in order; with the last of them the command
awaits its response, or is over if it is empty (R103, R106; logs 15, 31). -/
theorem run_hostSends {s : State} {f : Flight} {p : Packet} {ps : List Packet} {rest : List Turn}
    (hopen : s.session = .opened) (hflight : s.flight = some f) (hunsent : f.unsent = p :: ps)
    (hagenda : s.agenda = List.replicate (p :: ps).length .host ++ rest) :
    core.run (p :: ps).length s =
      .next (State.hostAdvance { s with agenda := rest, rxQ := s.rxQ ++ p :: ps } { f with unsent := [] }) := by
  induction ps generalizing p s f with
  | nil => exact run_next 0 (step_hostSend hopen hflight hunsent hagenda)
  | cons q qs ih =>
    refine (run_next _ (step_hostSend_more hopen hflight hunsent (List.cons_ne_nil q qs) hagenda)).trans ?_
    refine (ih (f := { f with unsent := q :: qs }) ?_ ?_ ?_ ?_).trans ?_
    exacts [hopen, rfl, rfl, rfl, by rw [List.append_assoc]; rfl]

theorem execHostShift_accepts {s : State} {n : Word32} (a b : List Byte) (hready : s.hostReady = true)
    (hcap : byteCountOf n ≤ s.cfg.CAP) :
    execHostShift n a b s = .next { s with flight := some ⟨n, a, b, commandPackets s.cfg.C n a b, []⟩ } := by
  unfold execHostShift
  rw [if_pos hready, if_neg (Nat.not_lt.mpr hcap)]

/-- The packets of an accepted `shift:` stand in `rx_q` once the Host has had a move for each. -/
theorem run_hostShift_sends {h : State} (n : Word32) (tms tdi : List Byte) (hready : h.hostReady = true) :
    ∃ u, core.run (commandPackets h.cfg.C n tms tdi).length { h with
        flight := some ⟨n, tms, tdi, commandPackets h.cfg.C n tms tdi, []⟩
        agenda := List.replicate (commandPackets h.cfg.C n tms tdi).length .host ++ h.agenda } = .next u ∧
      u.agenda = h.agenda ∧ u.rxQ = h.rxQ ++ commandPackets h.cfg.C n tms tdi := by
  obtain ⟨hopen, -⟩ := (hostReady_iff h).mp hready
  refine ⟨_, run_hostSends hopen rfl rfl rfl, ?_⟩
  rw [hostAdvance_frame]
  exact ⟨rfl, rfl⟩

theorem leValue_le32 (n : Word32) :
    leValue (n.extractLsb' 0 8) (n.extractLsb' 8 8) (n.extractLsb' 16 8) (n.extractLsb' 24 8) = n.toNat := by
  rw [leValue, ← unle32_toNat, unle32_le32]

/-- Settles O33: both are `commandPackets`, whose header is `le32` and whose vectors are cut by `chunk`. -/
theorem shiftcmdExpandsToTheHostsPackets : Obligations.ShiftcmdExpandsToTheHostsPackets := by
  intro s h n tms tdi hvalid _ _
  have hc := C_pos_of_valid hvalid
  refine ⟨_, _, _, _, chunk s.cfg.C tms, chunk s.cfg.C tdi, rfl, leValue_le32 n, isChunking_chunk hc tms,
    isChunking_chunk hc tdi, fun hready hcfg hcap => ?_⟩
  have hcount : 1 + (chunk s.cfg.C tms).length + (chunk s.cfg.C tdi).length =
      (commandPackets s.cfg.C n tms tdi).length := by
    rw [commandPackets, List.length_cons, List.length_append]
    omega
  obtain ⟨u, hrun, hagenda, hrx⟩ := run_hostShift_sends n tms tdi hready
  have hexec := execHostShift_accepts tms tdi hready (hcfg ▸ (byteCountOf_le_iff n _).mpr hcap)
  rw [hcfg] at hrun hrx hexec
  rw [hcount]
  exact ⟨_, u, hexec, hrun, hagenda, hrx⟩

end Sys2Proof.Machine
end

section
/-! PROOFS. A whole command (41_packet_reassembly.md, 42_shift_pass.md): the reception of its vectors, the pass over
them and the return, each as a run, and the three put together. -/

namespace Sys2Proof.Machine

/-! ### The reception of one vector (R122, R123, R125, R126) -/

theorem pokeBytes_append (m : Memory) (a : Nat) (xs ys : List Byte) :
    m.pokeBytes a (xs ++ ys) = (m.pokeBytes a xs).pokeBytes (a + xs.length) ys := by
  induction xs generalizing m a with
  | nil => rfl
  | cons x xs ih =>
    rw [List.cons_append, Memory.pokeBytes, ih, Memory.pokeBytes, List.length_cons, Nat.add_assoc, Nat.add_comm 1]

/-- A packet of exactly the bytes its position needs is accepted under either policy (R72, R80). -/
theorem badPayload_of_length {s : State} {p : Packet} (hlen : p.length = s.need) : s.badPayload p = false := by
  simp [State.badPayload, hlen]

section
variable {s : State} (b : BufId) (done : State → State) {p : Packet} (hlen : p.length = s.need)
  (hfits : s.offset + s.need ≤ s.cfg.CAP)
include hlen hfits

/-- A packet that completes its vector is stored, and the exit `done` is taken. -/
theorem payload_last (hlast : s.byteCount ≤ s.offset + s.cfg.C) :
    s.payload b done p = .next (done { s.setBuf b ((s.buf b).pokeBytes s.offset p) with offset := 0 }) := by
  unfold State.payload
  rw [badPayload_of_length hlen, if_neg Bool.false_ne_true, if_neg (Nat.not_lt.mpr hfits), if_pos hlast,
    List.take_of_length_le hlen.le]

theorem payload_more (hmore : s.offset + s.cfg.C < s.byteCount) :
    s.payload b done p =
      .next { s.setBuf b ((s.buf b).pokeBytes s.offset p) with offset := s.offset + s.cfg.C } := by
  unfold State.payload
  rw [badPayload_of_length hlen, if_neg Bool.false_ne_true, if_neg (Nat.not_lt.mpr hfits),
    if_neg (Nat.not_le.mpr hmore), List.take_of_length_le hlen.le]

end

/-- In phase `ph` the Engine, left to itself, takes payload packets into buffer `b` and leaves by `done`. -/
def Receives (ph : Phase) (b : BufId) (done : State → State) : Prop :=
  ∀ (s : State) (p : Packet) (ps : List Packet), s.undisturbed → s.phase = ph → s.rxQ = p :: ps →
    p.length ≤ s.cfg.C → step s = State.payload { s with rxQ := ps } b done p

theorem receives_tms : Receives .receiveTms .tms fun t => { t with phase := .receiveTdi } := by
  intro s p ps hs hphase hrx hlen
  obtain ⟨-, htms, -⟩ := step_packet hs hrx hlen
  exact (htms hphase).trans (if_pos hphase)

theorem receives_tdi : Receives .receiveTdi .tdi fun t => { t with i := 0, phase := .shift } := by
  intro s p ps hs hphase hrx hlen
  obtain ⟨-, -, htdi⟩ := step_packet hs hrx hlen
  exact (htdi hphase).trans (if_pos hphase)

/-- Bytes `v` of a vector taken into buffer `b` at the Engine's position, which is then `offset`, with `rest` still in
`rx_q`. -/
def State.took (s : State) (b : BufId) (v : List Byte) (offset : Nat) (rest : List Packet) : State :=
  { s.setBuf b ((s.buf b).pokeBytes s.offset v) with offset := offset, rxQ := rest }

/-- Two parts of a vector taken one after the other are taken as one. -/
theorem took_took (s : State) (b : BufId) (xs ys : List Byte) (offset : Nat) (q rest : List Packet) :
    (s.took b xs (s.offset + xs.length) q).took b ys offset rest = s.took b (xs ++ ys) offset rest := by
  cases b <;> simp [State.took, State.setBuf, State.buf, pokeBytes_append]

section
variable {ph : Phase} {b : BufId} {done : State → State} (hreceives : Receives ph b done)
include hreceives

theorem step_reception_last {s : State} {v : List Byte} {rest : List Packet} (hs : s.undisturbed)
    (hphase : s.phase = ph) (hend : s.offset + v.length = s.byteCount) (hcap : s.byteCount ≤ s.cfg.CAP)
    (hlast : v.length ≤ s.cfg.C) (hrx : s.rxQ = v :: rest) :
    step s = .next (done (s.took b v 0 rest)) := by
  have hneed : v.length = s.need := by
    rw [State.need, needOf]
    omega
  have hfits : s.offset + s.need ≤ s.cfg.CAP := by omega
  have hexit : s.byteCount ≤ s.offset + s.cfg.C := by omega
  exact (hreceives s v rest hs hphase hrx hlast).trans
    (payload_last (s := { s with rxQ := rest }) b done hneed hfits hexit)

theorem step_reception_more {s : State} {p : Packet} {ps : List Packet} (hs : s.undisturbed) (hphase : s.phase = ph)
    (hmore : s.offset + s.cfg.C < s.byteCount) (hcap : s.byteCount ≤ s.cfg.CAP) (hlen : p.length = s.cfg.C)
    (hrx : s.rxQ = p :: ps) :
    step s = .next (s.took b p (s.offset + p.length) ps) := by
  have hneed : p.length = s.need := by
    rw [State.need, needOf]
    omega
  have hfits : s.offset + s.need ≤ s.cfg.CAP := by omega
  rw [hlen]
  exact (hreceives s p ps hs hphase hrx hlen.le).trans
    (payload_more (s := { s with rxQ := ps }) b done hneed hfits hmore)

/-- The Engine receives the rest `v` of a vector at `offset`: its packets are consumed, its bytes stand in the buffer
from `offset` on, and the exit is taken. -/
theorem run_reception {s : State} {c : Nat} {v : List Byte} {rest : List Packet} (hC : s.cfg.C = c) (hc : 0 < c)
    (hv : v ≠ []) (hs : s.undisturbed) (hphase : s.phase = ph) (hend : s.offset + v.length = s.byteCount)
    (hcap : s.byteCount ≤ s.cfg.CAP) (hrx : s.rxQ = chunk c v ++ rest) :
    core.run (chunk c v).length s = .next (done (s.took b v 0 rest)) := by
  induction hn : v.length using Nat.strong_induction_on generalizing s v with
  | _ n ih =>
    rw [chunk_step c v hc hv] at hrx ⊢
    rcases Nat.lt_or_ge c v.length with hmore | hlast
    · have hlen : (v.take c).length = c := List.length_take_of_le hmore.le
      have hdrop : (v.drop c).length = v.length - c := List.length_drop
      have hne : v.drop c ≠ [] := List.length_pos_iff.mp (by omega)
      have hnext : s.offset + (v.take c).length + (v.drop c).length = s.byteCount := by omega
      have hrest := ih (v.drop c).length (by omega)
        (s := s.took b (v.take c) (s.offset + (v.take c).length) (chunk c (v.drop c) ++ rest))
        hC hne hs hphase hnext hcap rfl rfl
      rw [took_took, List.take_append_drop] at hrest
      exact (run_next _ (step_reception_more hreceives hs hphase (by omega) hcap (hlen.trans hC.symm) hrx)).trans hrest
    · rw [List.take_of_length_le hlast, List.drop_of_length_le hlast, chunk_nil c hc] at hrx ⊢
      exact run_next 0 (step_reception_last hreceives hs hphase hend hcap (hC ▸ hlast) hrx)

end

/-! ### The pass (R140 to R148) -/

/-- The samples of the first cycles of a pass, each stored in its bit (R141). -/
def tdoAfter (s : State) : Nat → Memory
  | 0 => s.tdoBuf
  | k + 1 => (tdoAfter s k).setBit k (sampleAt s.target s.tmsBuf s.tdiBuf k)

theorem getBit_tdoAfter (s : State) (k j : Nat) :
    (tdoAfter s k).getBit j = if j < k then sampleAt s.target s.tmsBuf s.tdiBuf j else s.tdoBuf.getBit j := by
  induction k with
  | zero => rfl
  | succ k ih =>
    rw [tdoAfter, Memory.getBit_setBit, ih]
    rcases Nat.lt_trichotomy j k with hlt | rfl | hgt
    · rw [if_neg hlt.ne, if_pos hlt, if_pos (by omega)]
    · rw [if_pos rfl, if_pos (Nat.lt_succ_self j)]
    · rw [if_neg hgt.ne', if_neg (by omega), if_neg (by omega)]

/-- The state in a pass begun in `s`, after its first `k` cycles: the last of them has driven the latches (R146). -/
def State.afterCycles (s : State) : Nat → State
  | 0 => { s with i := 0 }
  | k + 1 => { s with
      i := k + 1, tdoBuf := tdoAfter s (k + 1), target := targetAt s.target s.tmsBuf s.tdiBuf (k + 1)
      pinTrace := s.pinTrace ++ passTrace s.target s.tmsBuf s.tdiBuf (k + 1)
      tck := true, tms := levelAt s.tmsBuf k, tdi := levelAt s.tdiBuf k
      tdo := sampleAt s.target s.tmsBuf s.tdiBuf k }

/-- After any number of cycles, also after none, all but the latches is one expression of that number. -/
theorem afterCycles_eq (s : State) (k : Nat) :
    s.afterCycles k = { s with
      i := k, tdoBuf := tdoAfter s k, target := targetAt s.target s.tmsBuf s.tdiBuf k
      pinTrace := s.pinTrace ++ passTrace s.target s.tmsBuf s.tdiBuf k
      tck := (s.afterCycles k).tck, tms := (s.afterCycles k).tms, tdi := (s.afterCycles k).tdi
      tdo := (s.afterCycles k).tdo } := by
  cases k with
  | zero => simp only [State.afterCycles, passTrace, targetAt, tdoAfter, List.append_nil]
  | succ k => rfl

/-- SHIFT.CYCLE inside a pass, all its effects at once (R141). -/
theorem exec_shiftCycle {s : State} (hphase : s.phase = .shift) (hi : s.i < s.bitCount.toNat)
    (hcap : s.i / 8 < s.cfg.CAP) :
    exec .shiftCycle s = .next { s with
      tck := true, tms := levelAt s.tmsBuf s.i, tdi := levelAt s.tdiBuf s.i
      target := (s.target.apply (levelAt s.tmsBuf s.i) (levelAt s.tdiBuf s.i)).1
      tdo := (s.target.apply (levelAt s.tmsBuf s.i) (levelAt s.tdiBuf s.i)).2
      pinTrace := s.pinTrace ++ cycleEvents (levelAt s.tdiBuf s.i) (levelAt s.tmsBuf s.i)
        (s.target.apply (levelAt s.tmsBuf s.i) (levelAt s.tdiBuf s.i)).2
      tdoBuf := s.tdoBuf.setBit s.i (s.target.apply (levelAt s.tmsBuf s.i) (levelAt s.tdiBuf s.i)).2
      i := s.i + 1 } := by
  change execShiftCycle s = _
  unfold execShiftCycle
  rw [if_pos ⟨hphase, hi⟩, if_neg (Nat.not_le.mpr hcap), jtagCycle_eq, Memory.getBit_eq, Memory.getBit_eq]
  rfl

theorem afterCycles_zero {s : State} (hi : s.i = 0) : s.afterCycles 0 = s := by
  rw [State.afterCycles, ← hi]

theorem step_afterCycles {s : State} {k : Nat} (hagenda : s.agenda = []) (hphase : s.phase = .shift)
    (hk : k < s.bitCount.toNat) (hcap : k / 8 < s.cfg.CAP) :
    step (s.afterCycles k) = .next (s.afterCycles (k + 1)) := by
  rw [afterCycles_eq s k]
  refine (step_shiftCycle ?_ ?_ ?_).trans ((exec_shiftCycle ?_ ?_ ?_).trans ?_)
  exacts [hagenda, hphase, hk, hphase, hk, hcap, by rw [List.append_assoc]; rfl]

/-- The cycles of a pass, one a step, whatever waits in `rx_q` and whether or not an XRESET is held (R144). -/
theorem run_cycles {s : State} (hagenda : s.agenda = []) (hphase : s.phase = .shift) (hi : s.i = 0)
    (hcap : s.bitCount.toNat ≤ 8 * s.cfg.CAP) (k : Nat) (hk : k ≤ s.bitCount.toNat) :
    core.run k s = .next (s.afterCycles k) := by
  induction k with
  | zero => exact congrArg Host.Outcome.next (afterCycles_zero hi).symm
  | succ k ih =>
    rw [run_append k 1 (ih (Nat.le_of_succ_le hk))]
    exact run_next 0 (step_afterCycles hagenda hphase hk (by omega))

theorem exec_shiftReturn {s : State} (hphase : s.phase = .shift) (hi : s.i = s.bitCount.toNat)
    (hcap : s.byteCount ≤ s.cfg.CAP) :
    exec .shiftReturn s = .next { s with
      txQ := s.txQ ++ chunk s.cfg.C (s.tdoBuf.peekBytes s.byteCount), phase := .header } := by
  change execShiftReturn s = _
  unfold execShiftReturn
  rw [if_pos ⟨hphase, hi⟩, if_neg (Nat.not_lt.mpr hcap)]
  rfl

/-- The response to a pass begun in `s`: the samples of its cycles, cut into packets (R143). -/
def State.response (s : State) : List Packet :=
  chunk s.cfg.C ((tdoAfter s s.bitCount.toNat).peekBytes s.byteCount)

theorem step_return_afterCycles {s : State} (hagenda : s.agenda = []) (hphase : s.phase = .shift)
    (hcap : s.byteCount ≤ s.cfg.CAP) :
    step (s.afterCycles s.bitCount.toNat) = .next { s.afterCycles s.bitCount.toNat with
      txQ := s.txQ ++ s.response, phase := .header } := by
  rw [afterCycles_eq]
  refine (step_shiftReturn ?_ ?_ ?_).trans (exec_shiftReturn ?_ ?_ ?_)
  exacts [hagenda, hphase, rfl, hphase, rfl, hcap]

/-- A whole pass: its cycles, and the return of the samples (R143, R145). -/
theorem run_pass {s : State} (hagenda : s.agenda = []) (hphase : s.phase = .shift) (hi : s.i = 0)
    (hcap : s.bitCount.toNat ≤ 8 * s.cfg.CAP) :
    core.run (s.bitCount.toNat + 1) s = .next { s.afterCycles s.bitCount.toNat with
      txQ := s.txQ ++ s.response, phase := .header } := by
  rw [run_append _ 1 (run_cycles hagenda hphase hi hcap _ le_rfl)]
  exact run_next 0 (step_return_afterCycles hagenda hphase ((byteCountOf_le_iff _ _).mpr hcap))

/-- Bit `j` of the first `n` bytes of a buffer is its bit `j` (R52). -/
theorem getLsbD_peekBytes (m : Memory) {n j : Nat} (hj : j < 8 * n) :
    ((m.peekBytes n).getD (j / 8) 0).getLsbD (j % 8) = m.getBit j := by
  have hlt : j / 8 < (m.peekBytes n).length := by
    rw [Memory.peekBytes_length]
    omega
  rw [List.getD_eq_getElem _ _ hlt, Memory.getBit_eq]
  simp only [Memory.peekBytes, List.getElem_map, List.getElem_range]

theorem length_flatten_response {s : State} (hc : 0 < s.cfg.C) : s.response.flatten.length = s.byteCount := by
  rw [State.response, flatten_chunk hc, Memory.peekBytes_length]

/-- Bit `j` of the response is the sample of cycle `j`, and beyond the last cycle what `tdo_buf` held before (R148). -/
theorem getLsbD_flatten_response {s : State} (hc : 0 < s.cfg.C) {j : Nat} (hj : j < 8 * s.byteCount) :
    (s.response.flatten.getD (j / 8) 0).getLsbD (j % 8) =
      if j < s.bitCount.toNat then sampleAt s.target s.tmsBuf s.tdiBuf j else s.tdoBuf.getBit j := by
  rw [State.response, flatten_chunk hc, getLsbD_peekBytes _ hj, getBit_tdoAfter]

/-! ### The whole command (R74) -/

/-- The Engine with both vectors of a command received and its pass about to begin. -/
def State.received (s : State) (n : Word32) (tms tdi : List Byte) (rest : List Packet) : State :=
  { s with
    rxQ := rest, bitCount := n, offset := 0, i := 0, phase := .shift
    tmsBuf := Memory.zeroed.pokeBytes 0 tms, tdiBuf := Memory.zeroed.pokeBytes 0 tdi, tdoBuf := Memory.zeroed }

theorem headerBitCount_le32 (n : Word32) : headerBitCount (le32 n) = some n := congrArg some (unle32_le32 n)

/-- The header packet of a non-empty command is consumed and accepted (R121). -/
theorem step_header_accepts {s : State} {n : Word32} {rest : List Packet} (hvalid : s.cfg.valid)
    (hs : s.undisturbed) (hphase : s.phase = .header) (hn : 1 ≤ n.toNat) (hcap : byteCountOf n ≤ s.cfg.CAP)
    (hrx : s.rxQ = le32 n :: rest) :
    step s = .next { s with
      rxQ := rest, bitCount := n, offset := 0, phase := .receiveTms
      tmsBuf := Memory.zeroed, tdiBuf := Memory.zeroed, tdoBuf := Memory.zeroed } := by
  have hne : byteCountOf n ≠ 0 := by
    have hspec := byteCountOf_spec n
    omega
  have haccept := exec_pktHeader_accepts (s := { s with rxQ := rest }) hphase (headerBitCount_le32 n) hcap
  rw [acceptHeader_eq, if_neg hne, if_neg hne] at haccept
  obtain ⟨hheader, -, -⟩ := step_packet hs hrx hvalid
  exact (hheader hphase).trans haccept

/-- The packets of a command, one a step: the header, the TMS vector, the TDI vector. -/
theorem run_commandPackets {s : State} {n : Word32} {tms tdi : List Byte} {rest : List Packet} (hvalid : s.cfg.valid)
    (hs : s.undisturbed) (hphase : s.phase = .header) (hn : 1 ≤ n.toNat) (hcap : byteCountOf n ≤ s.cfg.CAP)
    (htms : tms.length = byteCountOf n) (htdi : tdi.length = byteCountOf n)
    (hrx : s.rxQ = commandPackets s.cfg.C n tms tdi ++ rest) :
    core.run (commandPackets s.cfg.C n tms tdi).length s = .next (s.received n tms tdi rest) := by
  have hc := C_pos_of_valid hvalid
  have hspec := byteCountOf_spec n
  have hne : ∀ v : List Byte, v.length = byteCountOf n → v ≠ [] := fun v hv => List.length_pos_iff.mp (by omega)
  rw [commandPackets, List.cons_append, List.append_assoc] at hrx
  have hheader := step_header_accepts hvalid hs hphase hn hcap hrx
  have hrunTms := run_reception receives_tms rfl hc (hne tms htms) (s := { s with
      rxQ := chunk s.cfg.C tms ++ (chunk s.cfg.C tdi ++ rest), bitCount := n, offset := 0, phase := .receiveTms
      tmsBuf := Memory.zeroed, tdiBuf := Memory.zeroed, tdoBuf := Memory.zeroed })
    hs rfl ((Nat.zero_add _).trans htms) hcap rfl
  have hrunTdi := run_reception receives_tdi rfl hc (hne tdi htdi) (s := { s with
      rxQ := chunk s.cfg.C tdi ++ rest, bitCount := n, offset := 0, phase := .receiveTdi
      tmsBuf := Memory.zeroed.pokeBytes 0 tms, tdiBuf := Memory.zeroed, tdoBuf := Memory.zeroed })
    hs rfl ((Nat.zero_add _).trans htdi) hcap rfl
  rw [commandPackets, List.length_cons, List.length_append]
  exact (run_next _ hheader).trans ((run_append _ _ hrunTms).trans hrunTdi)

theorem peek_zeroed_pokeBytes (v : List Byte) (a : Nat) : (Memory.zeroed.pokeBytes 0 v).peek a = v.getD a 0 := by
  rw [Memory.peek_pokeBytes, Memory.zeroed_peek, Nat.sub_zero, Nat.zero_add]
  by_cases ha : a < v.length
  · rw [if_pos ⟨Nat.zero_le a, ha⟩]
  · rw [if_neg (fun h => ha h.2), List.getD_eq_default _ _ (Nat.not_lt.mp ha)]

/-- Settles O17: the packets lead to the state `received`, from which the pass and its return run. -/
theorem oneCommandEndToEnd : Obligations.OneCommandEndToEnd := by
  intro s n tms tdi rest bc hvalid hs hphase hbc hn hcap htms htdi hrx
  have hcount : bc = byteCountOf n := hbc
  subst hcount
  have hcommand := run_commandPackets hvalid hs hphase hn ((byteCountOf_le_iff n _).mpr hcap) htms htdi hrx
  obtain ⟨hagenda, -⟩ := hs
  have hpass := run_pass (s := s.received n tms tdi rest) hagenda rfl rfl hcap
  rw [afterCycles_eq] at hpass
  refine ⟨_, _, (run_append _ (n.toNat + 1) hcommand).trans hpass, rfl, rfl, rfl, rfl, rfl,
    peek_zeroed_pokeBytes tms, peek_zeroed_pokeBytes tdi, length_flatten_response (C_pos_of_valid hvalid),
    fun j hj => ?_, rfl⟩
  have hblank : Memory.zeroed.getBit j = false := by simp [Memory.getBit_eq]
  rw [← hblank]
  exact getLsbD_flatten_response (s := s.received n tms tdi rest) (C_pos_of_valid hvalid) hj

end Sys2Proof.Machine
end

section
/-! PROOFS. The Host's commands (40_host_command_framer.md R101 to R104, R108): what each writes, sends or discards when
it runs on a Host between commands. -/

namespace Sys2Proof.Machine

/-! ### The decimal text of a number (R79) -/

/-- The last decimal digit of a number in ASCII. -/
def decimalDigit (n : Nat) : Byte := BitVec.ofNat 8 (48 + n % 10)

theorem decimalDigit_toNat (n : Nat) : (decimalDigit n).toNat = 48 + n % 10 := by
  rw [decimalDigit, BitVec.toNat_ofNat]
  omega

/-- The number that ASCII digits spell, most significant first. -/
def decimalValue (ds : List Byte) : Nat := ds.foldl (fun acc b => 10 * acc + (b.toNat - 48)) 0

theorem decimalValue_append (ds : List Byte) (b : Byte) :
    decimalValue (ds ++ [b]) = 10 * decimalValue ds + (b.toNat - 48) := by
  rw [decimalValue, List.foldl_append]
  rfl

/-- Whatever holds of one digit, and of a number's digits if it holds of the digits of its tenth, holds of every decimal
text. -/
theorem decimalText_induction {P : Nat → List Byte → Prop} (one : ∀ n, n < 10 → P n [decimalDigit n])
    (more : ∀ n ds, 10 ≤ n → P (n / 10) ds → P n (ds ++ [decimalDigit n])) (n : Nat) : P n (decimalText n) := by
  have digits : ∀ fuel n, n < fuel → P n (decimalDigits fuel n) := by
    intro fuel
    induction fuel with
    | zero => intro n hn; exact absurd hn (Nat.not_lt_zero n)
    | succ fuel ih =>
      intro n hn
      rw [decimalDigits]
      by_cases h : n < 10
      · rw [if_pos h]
        exact one n h
      · rw [if_neg h]
        exact more n _ (Nat.not_lt.mp h) (ih _ (by omega))
  exact digits _ n (Nat.lt_succ_self n)

theorem decimalText_digits (n : Nat) : ∀ b ∈ decimalText n, 48 ≤ b.toNat ∧ b.toNat ≤ 57 := by
  have hdigit : ∀ n, ∀ b ∈ [decimalDigit n], 48 ≤ b.toNat ∧ b.toNat ≤ 57 := by
    intro n b hb
    rw [List.mem_singleton.mp hb, decimalDigit_toNat]
    omega
  exact decimalText_induction (P := fun _ ds => ∀ b ∈ ds, 48 ≤ b.toNat ∧ b.toNat ≤ 57) (fun n _ => hdigit n)
    (fun n _ _ ih => List.forall_mem_append.mpr ⟨ih, hdigit n⟩) n

theorem decimalValue_decimalText (n : Nat) : decimalValue (decimalText n) = n := by
  refine decimalText_induction (P := fun n ds => decimalValue ds = n) (fun n hn => ?_) (fun n ds _ ih => ?_) n
  · rw [← List.nil_append [decimalDigit n], decimalValue_append, decimalDigit_toNat]
    change 10 * 0 + _ = n
    omega
  · rw [decimalValue_append, ih, decimalDigit_toNat]
    omega

/-- A decimal text has a first digit, and only the text of 0, a single digit, begins with 0. -/
theorem decimalText_head (n : Nat) : ∃ d ds, decimalText n = d :: ds ∧ (d = 48 → n = 0 ∧ ds = []) := by
  refine decimalText_induction (P := fun n bs => ∃ d ds, bs = d :: ds ∧ (d = 48 → n = 0 ∧ ds = []))
    (fun n hn => ⟨_, [], rfl, fun hzero => ⟨?_, rfl⟩⟩) (fun n bs hn ih => ?_) n
  · have hval := congrArg BitVec.toNat hzero
    rw [decimalDigit_toNat] at hval
    change 48 + n % 10 = 48 at hval
    omega
  · obtain ⟨d, ds, rfl, hhead⟩ := ih
    refine ⟨d, _, rfl, fun hzero => ?_⟩
    have htenth := (hhead hzero).1
    omega

/-! ### getinfo: and settck: (R101, R102) -/

theorem exec_hostGetinfo {s : State} (hready : s.hostReady = true) :
    exec .hostGetinfo s = .next (s.tcpWrite (getinfoReply s.cfg.maxPayload)) := if_pos hready

/-- The reply at the reference value of MAXPAYLOAD (R79). -/
theorem getinfoReply_2048 : getinfoReply 2048 =
    [0x78, 0x76, 0x63, 0x53, 0x65, 0x72, 0x76, 0x65, 0x72, 0x5F, 0x76, 0x31, 0x2E, 0x30, 0x3A,
      0x32, 0x30, 0x34, 0x38, 0x0A] := by decide

/-- Settles O34: the digits are `decimalText` of MAXPAYLOAD. -/
theorem getinfoWritesTheCapabilityString : Obligations.GetinfoWritesTheCapabilityString := by
  intro s hready
  obtain ⟨d, ds, htext, hzero⟩ := decimalText_head s.cfg.maxPayload
  refine ⟨⟨decimalText s.cfg.maxPayload, exec_hostGetinfo hready, ?_, decimalText_digits _,
    decimalValue_decimalText _, ?_⟩, fun hmax => ?_⟩
  · rw [htext]
    exact List.cons_ne_nil d ds
  · rw [htext]
    intro hlen hhead
    obtain ⟨-, rfl⟩ := hzero (Option.some.inj hhead)
    rw [List.length_singleton] at hlen
    omega
  · rw [exec_hostGetinfo hready, hmax, getinfoReply_2048]
    rfl

theorem exec_hostSettck {s : State} (period : Word32) (hready : s.hostReady = true) :
    exec (.hostSettck period) s = .next (s.tcpWrite (le32 period)) := if_pos hready

/-- `le32` undoes `unle32` (R9): four bytes are determined by their little-endian value. -/
theorem le32_unle32 (b0 b1 b2 b3 : Byte) : le32 (unle32 b0 b1 b2 b3) = [b0, b1, b2, b3] := by
  have hval := leValue_le32 (unle32 b0 b1 b2 b3)
  rw [unle32_toNat, leValue] at hval
  simp only [le32, List.cons.injEq, and_true, ← BitVec.toNat_inj]
  refine ⟨?_, ?_, ?_, ?_⟩ <;> omega

/-- Settles O35: the period read is `unle32` of the four bytes, which `le32` writes back. -/
theorem settckEchoesItsFourBytes : Obligations.SettckEchoesItsFourBytes := by
  intro s b0 b1 b2 b3 rest hready
  refine ⟨unle32 b0 b1 b2 b3, decodeTcp_settck s.cfg.CAP (b0 :: b1 :: b2 :: b3 :: rest), ?_⟩
  rw [exec_hostSettck _ hready, le32_unle32]
  rfl

/-! ### shift: (R103, R106, R108) -/

/-- Settles O36: the packets are `commandPackets`; the header is `le32`, the vectors are cut by `chunk`, and a command
that expects a byte awaits it once all is sent. -/
theorem shiftSendsHeaderThenTmsThenTdi : Obligations.ShiftSendsHeaderThenTmsThenTdi := by
  intro s n tms tdi hvalid hready _ _ hn hcap
  have hc := C_pos_of_valid hvalid
  obtain ⟨hopen, -⟩ := (hostReady_iff s).mp hready
  refine ⟨_, _, _, _, chunk s.cfg.C tms, chunk s.cfg.C tdi, commandPackets s.cfg.C n tms tdi, rfl, leValue_le32 n,
    isChunking_chunk hc tms, isChunking_chunk hc tdi,
    execHostShift_accepts tms tdi hready ((byteCountOf_le_iff n _).mpr hcap), ?_⟩
  have hawaits : ([] : List Byte).length < byteCountOf n := by
    have hspec := byteCountOf_spec n
    rw [List.length_nil]
    omega
  refine (run_hostSends ?_ rfl rfl rfl).trans ?_
  · exact hopen
  · exact congrArg Host.Outcome.next (hostAdvance_more hawaits)

/-- A command of no bits has no packet but its header (R103). -/
theorem commandPackets_empty {c : Nat} (hc : 0 < c) : commandPackets c 0 [] [] = [[0, 0, 0, 0]] := by
  rw [commandPackets, chunk_nil c hc]
  rfl

/-- Settles O37: the header is the last packet to send and no byte is awaited. -/
theorem emptyShiftIsAnsweredAtOnce : Obligations.EmptyShiftIsAnsweredAtOnce := by
  intro s hvalid hready
  obtain ⟨hopen, hflight, -⟩ := (hostReady_iff s).mp hready
  constructor
  · rw [← commandPackets_empty (C_pos_of_valid hvalid)]
    exact execHostShift_accepts [] [] hready (Nat.zero_le _)
  · refine (step_hostSend ?_ rfl rfl rfl).trans ?_
    · exact hopen
    · rw [State.hostSend, hostAdvance_done rfl (Nat.zero_le _), ← hflight]
      simp only [State.sendPackets, List.append_nil]

theorem execHostShift_rejects {s : State} {n : Word32} (a b : List Byte) (hready : s.hostReady = true)
    (hcap : s.cfg.CAP < byteCountOf n) : execHostShift n a b s = .next (s.hostReject n) := by
  unfold execHostShift
  rw [if_pos hready, if_pos hcap]

theorem hostReject_teardown {s : State} (n : Word32) (hpolicy : s.cfg.hostCapPolicy = .teardown) :
    s.hostReject n = s.teardown .capacity := by
  unfold State.hostReject
  rw [hpolicy]

theorem hostReject_drain {s : State} (n : Word32) (hpolicy : s.cfg.hostCapPolicy = .drainAndContinue) :
    s.hostReject n = { s.hostNote .capacity with drain := 2 * byteCountOf n } := by
  unfold State.hostReject
  rw [hpolicy]

/-- Settles O39: the capacity check comes first, and the policy says what the rejection does. -/
theorem overCapacityShiftIsRejectedByTheHost : Obligations.OverCapacityShiftIsRejectedByTheHost := by
  intro s n tms tdi hready hcap
  have hexec : exec (.hostShift n tms tdi) s = .next (s.hostReject n) :=
    execHostShift_rejects tms tdi hready ((byteCountOf_gt_iff n _).mpr hcap)
  constructor
  · intro hpolicy
    rw [hexec, hostReject_teardown n hpolicy]
    rfl
  · intro hpolicy
    rw [hexec, hostReject_drain n hpolicy]
    rfl

/-! ### An unknown command (R104) -/

/-- Settles O40: what is consumed is the free value UNKNOWN_CONSUME of the stream. -/
theorem unknownCommandHasNoSideEffect : Obligations.UnknownCommandHasNoSideEffect :=
  fun _ seen hready => ⟨Config.unknownConsume seen, if_pos hready⟩

end Sys2Proof.Machine
end

section
/-! PROOFS. The command in flight (40_host_command_framer.md R103, R107, R110, R111): the sending of its packets, the
relay of its response, and the failures that end the session. -/

namespace Sys2Proof.Machine

/-- Settles O38: the step is the Host's sending, after which more is left to send. -/
theorem hostSendsOnePacketAMove : Obligations.HostSendsOnePacketAMove :=
  fun _ _ _ _ _ hopen hflight hunsent hmore hagenda => step_hostSend_more hopen hflight hunsent hmore hagenda

/-! ### The relay of the response (R107) -/

theorem step_of_fetch_move {s t : State} (hfetch : fetch s = .move t) : step s = .next t := by
  simp only [step, hfetch]

/-- The Engine waits with no packet, no XRESET and nothing scheduled: the Host has the next move (log 2). -/
abbrev State.engineWaits (s : State) : Prop := s.undisturbed ∧ s.phase = .header ∧ s.rxQ = []

/-- A Host with all of its command sent collects the next response packet while the Engine waits (R107). -/
theorem step_hostCollect {s : State} {f : Flight} {q : Packet} {qs : List Packet} (hwaits : s.engineWaits)
    (hopen : s.session = .opened) (hflight : s.flight = some f) (hunsent : f.unsent = []) (htx : s.txQ = q :: qs) :
    step s = .next (s.hostCollect f q qs) := by
  obtain ⟨⟨hagenda, hx⟩, hphase, hrx⟩ := hwaits
  have hidle : engineMove s = none := engineMove_waits (by simp [hphase]) hx hrx
  have hmove : hostMove s = some (.move (s.hostCollect f q qs)) := by
    simp only [hostMove, hopen, reduceCtorEq, if_false, hflight, hunsent, htx]
  apply step_of_fetch_move
  simp only [fetch, hagenda, autoMove, hidle, hmove, Option.getD_some]

/-- A response packet that holds no more than is wanted is collected whole (R107). -/
theorem hostCollect_whole (s : State) {f : Flight} {q : Packet} (qs : List Packet)
    (hfits : f.tdo.length + q.length ≤ byteCountOf f.bitCount) :
    s.hostCollect f q qs = State.hostAdvance { s with txQ := qs } { f with tdo := f.tdo ++ q } := by
  have hwant : q.length ≤ byteCountOf f.bitCount - f.tdo.length := by omega
  simp only [State.hostCollect, if_pos hwant, List.take_of_length_le hwant]

/-- Non-empty packets that hold just what is still wanted of a response end the command, one a step, with all of it
written to the client (R103, R107). -/
theorem run_relay {s : State} {f : Flight} {q : Packet} {qs : List Packet} (hwaits : s.engineWaits)
    (hopen : s.session = .opened) (hflight : s.flight = some f) (hunsent : f.unsent = []) (htx : s.txQ = q :: qs)
    (hne : ∀ p ∈ qs, p ≠ []) (hlen : f.tdo.length + (q :: qs).flatten.length = byteCountOf f.bitCount) :
    core.run (q :: qs).length s =
      .next { s with txQ := [], flight := none, tcpOut := s.tcpOut ++ (f.tdo ++ (q :: qs).flatten) } := by
  induction qs generalizing s f q with
  | nil =>
    rw [List.flatten_singleton] at hlen ⊢
    have hdone : byteCountOf f.bitCount ≤ (f.tdo ++ q).length := by rw [List.length_append, hlen]
    refine run_next 0 ?_
    rw [step_hostCollect hwaits hopen hflight hunsent htx, hostCollect_whole s [] hlen.le,
      hostAdvance_done (f := { f with tdo := f.tdo ++ q }) hunsent hdone]
  | cons p ps ih =>
    obtain ⟨hp, hps⟩ := List.forall_mem_cons.mp hne
    have hpos := List.length_pos_iff.mpr hp
    simp only [List.flatten_cons, List.length_append] at hlen
    have hmore : (f.tdo ++ q).length < byteCountOf f.bitCount := by
      rw [List.length_append]
      omega
    have hstep : step s = .next { s with txQ := p :: ps, flight := some { f with tdo := f.tdo ++ q } } := by
      rw [step_hostCollect hwaits hopen hflight hunsent htx, hostCollect_whole s (p :: ps) (by omega),
        hostAdvance_more hmore]
    have hlen' : (f.tdo ++ q).length + (p :: ps).flatten.length = byteCountOf f.bitCount := by
      simp only [List.flatten_cons, List.length_append]
      omega
    refine (run_next _ hstep).trans ((ih (f := { f with tdo := f.tdo ++ q }) ?_ ?_ rfl hunsent rfl hps hlen').trans ?_)
    · exact hwaits
    · exact hopen
    · rw [List.flatten_cons (L := p :: ps), ← List.append_assoc f.tdo]

/-- Settles O41: a response of at least one byte stands in at least one packet, and the packets are relayed. -/
theorem responseIsRelayedWhateverItsPackets : Obligations.ResponseIsRelayedWhateverItsPackets := by
  intro s f hs hphase hrx hopen hflight hunsent htdo hne hn hlen
  cases htx : s.txQ with
  | nil =>
    rw [htx, List.flatten_nil, List.length_nil] at hlen
    omega
  | cons q qs =>
    rw [htx] at hne hlen
    have hwanted : f.tdo.length + (q :: qs).flatten.length = byteCountOf f.bitCount := by
      rw [htdo, List.length_nil, Nat.zero_add]
      exact hlen
    have hrun := run_relay ⟨hs, hphase, hrx⟩ hopen hflight hunsent htx (List.forall_mem_cons.mp hne).2 hwanted
    rwa [htdo, List.nil_append] at hrun

/-! ### Failures (R110, R111, R174, R176) -/

/-- A scheduled entry that is a move whatever the agents could do is made. -/
theorem step_turn_move {s t : State} {tn : Turn} {rest : List Turn} (hagenda : s.agenda = tn :: rest)
    (hturn : takeTurn s tn rest = .move t) : step s = .next t := by
  apply step_of_fetch_move
  simp only [fetch, hagenda, hturn]

theorem connectionLost_opened {s : State} (hopen : s.session = .opened) :
    s.connectionLost = s.teardown .connectionFatal := if_pos hopen

theorem transportTimeout_inFlight {s : State} {f : Flight} (hopen : s.session = .opened) (hflight : s.flight = some f) :
    s.transportTimeout = s.teardown .transportTimeout := if_pos ⟨hopen, by rw [hflight]; rfl⟩

/-- Settles O42: either event is `connectionLost`, which tears an open session down. -/
theorem lostConnectionTearsTheSessionDown : Obligations.LostConnectionTearsTheSessionDown := by
  intro s rest hopen hagenda
  have hlost := connectionLost_opened (s := { s with agenda := rest }) hopen
  rcases hagenda with hclosed | hfailed
  · exact step_turn_move hclosed (congrArg Fetched.move hlost)
  · exact step_turn_move hfailed (congrArg Fetched.move hlost)

/-- Settles O43: the entry is `transportTimeout`, which tears down an open session with a command in flight. -/
theorem anyTransportOperationMayTimeOut : Obligations.AnyTransportOperationMayTimeOut := by
  intro s f rest hopen hflight hagenda
  have htorn := transportTimeout_inFlight (s := { s with agenda := rest }) hopen hflight
  exact step_turn_move hagenda (congrArg Fetched.move htorn)

end Sys2Proof.Machine
end

section
/-! PROOFS. The packet framer state machine (41_packet_reassembly.md): the accepted header, the storing of a payload
packet, the reassembly of a vector from its packets, and the pairs of state and event that have no step. -/

namespace Sys2Proof.Machine

/-! ### The header (R121, R124) -/

theorem peek_acceptHeader (s : State) (n : Word32) (b : BufId) (a : Nat) :
    ((s.acceptHeader n).buf b).peek a = 0 := by
  rw [acceptHeader_eq]
  cases b <;> exact Memory.zeroed_peek a

theorem acceptHeader_nonempty (s : State) {n : Word32} (hn : byteCountOf n ≠ 0) :
    s.acceptHeader n = { s.zeroBuffers with bitCount := n, offset := 0, phase := .receiveTms } := if_neg hn

/-- Settles O3: a value of 1 to 8 * CAP passes the capacity check and is no zero-length command. -/
theorem acceptedHeaderStartsReception : Obligations.AcceptedHeaderStartsReception := by
  intro s b0 b1 b2 b3 rest hphase hpos hle
  have hvalue : (unle32 b0 b1 b2 b3).toNat = leValue b0 b1 b2 b3 := unle32_toNat b0 b1 b2 b3
  have hcap : byteCountOf (unle32 b0 b1 b2 b3) ≤ s.cfg.CAP := (byteCountOf_le_iff _ _).mpr (hvalue ▸ hle)
  have hne : byteCountOf (unle32 b0 b1 b2 b3) ≠ 0 := by
    have hspec := byteCountOf_spec (unle32 b0 b1 b2 b3)
    omega
  refine ⟨_, exec_pktHeader_accepts hphase rfl hcap, ?_, peek_acceptHeader s _, ?_⟩ <;>
    rw [acceptHeader_nonempty s hne]
  · exact hvalue
  · rfl

/-- With no bit to return no packet is emitted (R124, R143). -/
theorem exec_shiftReturn_empty {s : State} (hc : 0 < s.cfg.C) (hphase : s.phase = .shift) (hi : s.i = 0)
    (hn : s.bitCount = 0) : exec .shiftReturn s = .next { s with phase := .header } := by
  have hcount : s.byteCount = 0 := (byteCountOf_eq_zero _).mpr hn
  have hend : s.i = s.bitCount.toNat := by rw [hi, hn]; rfl
  rw [exec_shiftReturn hphase hend (hcount ▸ Nat.zero_le _), hcount]
  change Host.Outcome.next { s with txQ := s.txQ ++ chunk s.cfg.C [], phase := .header } = _
  rw [chunk_nil _ hc, List.append_nil]

/-- Settles O4: four zero bytes are the count 0, with which the header leads to `SHIFT` and `i` is at its end. -/
theorem zeroLengthCommandReturnsAtOnce : Obligations.ZeroLengthCommandReturnsAtOnce := by
  intro s rest hvalid hphase
  exact ⟨s.acceptHeader 0, exec_pktHeader_accepts hphase rfl (Nat.zero_le _), peek_acceptHeader s 0, rfl,
    exec_shiftReturn_empty (s := s.acceptHeader 0) (C_pos_of_valid hvalid) rfl rfl rfl⟩

/-! ### A payload packet (R122, R123) -/

section
variable {s : State} {p : Packet}
  (haccepted : p.length = s.need ∨ (s.need < p.length ∧ s.cfg.excessPolicy = .ignore))
include haccepted

/-- A packet of the bytes its position needs is not refused, nor is a longer one whose excess is ignored (R72, R80). -/
theorem badPayload_of_accepted : s.badPayload p = false := by
  rcases haccepted with hlen | ⟨hlong, hignore⟩
  · exact badPayload_of_length hlen
  · simp [State.badPayload, hlong.le, hignore]

theorem need_le_of_accepted : s.need ≤ p.length :=
  haccepted.elim Eq.ge fun hlong => hlong.1.le

end

/-- A packet that is not refused and fits its buffer is stored; whether it completes the vector decides the rest. -/
theorem payload_accepts {s : State} (b : BufId) (done : State → State) {p : Packet} (hgood : s.badPayload p = false)
    (hfits : s.offset + s.need ≤ s.cfg.CAP) :
    s.payload b done p = .next (if s.byteCount ≤ s.offset + s.cfg.C then done { s.stored b p with offset := 0 }
      else { s.stored b p with offset := s.offset + s.cfg.C }) := by
  unfold State.payload
  rw [hgood, if_neg Bool.false_ne_true, if_neg (Nat.not_lt.mpr hfits), apply_ite Host.Outcome.next]
  rfl

/-- The first `need` bytes of a stored packet stand at `offset` on; every other byte is kept (R126). -/
theorem peek_stored {s : State} (b : BufId) {p : Packet} (hlen : s.need ≤ p.length) (a : Nat) :
    ((s.stored b p).buf b).peek a =
      if s.offset ≤ a ∧ a < s.offset + s.need then p.getD (a - s.offset) 0 else (s.buf b).peek a := by
  rw [buf_stored, if_pos rfl, Memory.peek_pokeBytes, List.length_take_of_le hlen]
  by_cases ha : s.offset ≤ a ∧ a < s.offset + s.need
  · have hlt : a - s.offset < s.need := by omega
    rw [if_pos ha, if_pos ha, List.getD_eq_getElem?_getD, List.getD_eq_getElem?_getD, List.getElem?_take_of_lt hlt]
  · rw [if_neg ha, if_neg ha]

theorem exec_pktTms {s : State} (p : Packet) (hphase : s.phase = .receiveTms) :
    exec (.pktTms p) s = s.payload .tms (fun t => { t with phase := .receiveTdi }) p := if_pos hphase

theorem exec_pktTdi {s : State} (p : Packet) (hphase : s.phase = .receiveTdi) :
    exec (.pktTdi p) s = s.payload .tdi (fun t => { t with i := 0, phase := .shift }) p := if_pos hphase

/-- Settles O5: the packet is stored, and the two ends of the reception differ in position and state alone. -/
theorem tmsPacketIsStored : Obligations.TmsPacketIsStored := by
  rintro s p _ _ hphase rfl rfl hfits haccepted
  refine ⟨_, (exec_pktTms p hphase).trans (payload_accepts .tms _ (badPayload_of_accepted haccepted) hfits), ?_⟩
  have hbuf := peek_stored (s := s) .tms (need_le_of_accepted haccepted)
  by_cases hlast : s.byteCount ≤ s.offset + s.cfg.C
  · rw [if_pos hlast]
    exact ⟨hbuf, (if_pos hlast).mpr ⟨rfl, rfl⟩, rfl⟩
  · rw [if_neg hlast]
    exact ⟨hbuf, (if_neg hlast).mpr ⟨rfl, hphase⟩, rfl⟩

/-- Settles O6: as for a TMS packet, with `i` 0 at the end of the vector. -/
theorem tdiPacketIsStored : Obligations.TdiPacketIsStored := by
  rintro s p _ _ hphase rfl rfl hfits haccepted
  refine ⟨_, (exec_pktTdi p hphase).trans (payload_accepts .tdi _ (badPayload_of_accepted haccepted) hfits), ?_⟩
  have hbuf := peek_stored (s := s) .tdi (need_le_of_accepted haccepted)
  by_cases hlast : s.byteCount ≤ s.offset + s.cfg.C
  · rw [if_pos hlast]
    exact ⟨hbuf, (if_pos hlast).mpr ⟨rfl, rfl, rfl⟩, rfl⟩
  · rw [if_neg hlast]
    exact ⟨hbuf, (if_neg hlast).mpr ⟨rfl, rfl, hphase⟩, rfl⟩

/-! ### A whole vector (R125, R126) -/

theorem peek_pokeBytes_zero (m : Memory) (v : List Byte) (a : Nat) :
    (m.pokeBytes 0 v).peek a = if a < v.length then v.getD a 0 else m.peek a := by
  simp only [Memory.peek_pokeBytes, Nat.zero_le, true_and, Nat.zero_add, Nat.sub_zero]

/-- From position 0 a vector taken whole fills its buffer from index 0, and the position is 0 again. -/
theorem took_from_zero {s : State} (b : BufId) (v : List Byte) (rest : List Packet) (hoffset : s.offset = 0) :
    s.took b v 0 rest = { s.setBuf b ((s.buf b).pokeBytes 0 v) with rxQ := rest } := by
  cases s
  cases hoffset
  rfl

/-- The Engine at position 0 consumes the packets of a `byte_count`-byte vector, one a step, and holds the vector at the
start of the buffer when it takes the exit. -/
theorem run_vector {ph : Phase} {b : BufId} {done : State → State} (hreceives : Receives ph b done) {s : State}
    {v : List Byte} {rest : List Packet} (hvalid : s.cfg.valid) (hs : s.undisturbed) (hphase : s.phase = ph)
    (hoffset : s.offset = 0) (hlen : v.length = s.byteCount) (hpos : 1 ≤ v.length) (hcap : v.length ≤ s.cfg.CAP)
    (hrx : s.rxQ = chunk s.cfg.C v ++ rest) :
    core.run (chunk s.cfg.C v).length s =
      .next (done { s.setBuf b ((s.buf b).pokeBytes 0 v) with rxQ := rest }) := by
  have hend : s.offset + v.length = s.byteCount := by omega
  rw [← took_from_zero b v rest hoffset]
  exact run_reception hreceives rfl (C_pos_of_valid hvalid) (List.length_pos_iff.mp hpos) hs hphase hend
    (hlen ▸ hcap) hrx

/-- Settles O9: the run of a whole vector into `tms_buf`. -/
theorem tmsReceptionReassemblesTheVector : Obligations.TmsReceptionReassemblesTheVector :=
  fun s v _ hvalid hs hphase hoffset hlen hpos hcap hrx =>
    ⟨_, run_vector receives_tms hvalid hs hphase hoffset hlen hpos hcap hrx, peek_pokeBytes_zero s.tmsBuf v, rfl⟩

/-- Settles O10: the run of a whole vector into `tdi_buf`. -/
theorem tdiReceptionReassemblesTheVector : Obligations.TdiReceptionReassemblesTheVector :=
  fun s v _ hvalid hs hphase hoffset hlen hpos hcap hrx =>
    ⟨_, run_vector receives_tdi hvalid hs hphase hoffset hlen hpos hcap hrx, peek_pokeBytes_zero s.tdiBuf v, rfl⟩

/-! ### No other pair of state and event has a step (R127) -/

/-- Settles O8: each of the five operations asks for its trigger before anything else. -/
theorem untriggeredOperationsHaveNoStep : Obligations.UntriggeredOperationsHaveNoStep :=
  fun _ _ => ⟨fun h => if_neg h, fun h => if_neg h, fun h => if_neg h, fun h => if_neg h, fun h => if_neg h⟩

end Sys2Proof.Machine
end

section
/-! PROOFS. The bit-bang pass and the return of the TDO vector (42_shift_pass.md): one cycle, the return, and a whole
pass with its trace and response. -/

namespace Sys2Proof.Machine

/-! ### One cycle and the return (R141, R143) -/

/-- Bit `i` set changes the level of that bit alone (R163). -/
theorem levelAt_setBit (m : Memory) (i : Nat) (v : Bit) (j : Nat) :
    levelAt (m.setBit i v) j = if j = i then v else levelAt m j := by
  rw [levelAt, levelAt, ← Memory.getBit_eq, ← Memory.getBit_eq, Memory.getBit_setBit]

/-- Settles O14: the cycle's effects at once, of which the sample in `tdo_buf` is one bit set. -/
theorem cycleDrivesThePinsInOrder : Obligations.CycleDrivesThePinsInOrder := by
  rintro s _ _ _ hphase hi hcap rfl rfl rfl
  exact ⟨_, exec_shiftCycle hphase hi hcap, levelAt_setBit s.tdoBuf s.i _, rfl⟩

/-- Settles O15: what is emitted is the cut of the first `byte_count` bytes. -/
theorem returnSendsTheTdoVector : Obligations.ReturnSendsTheTdoVector := by
  rintro s _ hvalid hphase hi rfl hcap
  exact ⟨_, exec_shiftReturn hphase hi hcap, isChunking_chunk (C_pos_of_valid hvalid) _⟩

/-! ### A whole pass (R144 to R148) -/

/-- The last of the cycles performed has driven the latches and the Target (R146). -/
theorem afterCycles_levels_driven (s : State) {k : Nat} (hk : 1 ≤ k) :
    (s.afterCycles k).tck = true ∧ (s.afterCycles k).tdi = levelAt s.tdiBuf (k - 1) ∧
      (s.afterCycles k).tms = levelAt s.tmsBuf (k - 1) ∧
      (s.afterCycles k).tdo = sampleAt s.target s.tmsBuf s.tdiBuf (k - 1) := by
  cases k with
  | zero => exact absurd hk (by decide)
  | succ k => exact ⟨rfl, rfl, rfl, rfl⟩

/-- With no cycle performed no level has changed. -/
theorem afterCycles_levels_kept (s : State) {k : Nat} (hk : k = 0) :
    (s.afterCycles k).tck = s.tck ∧ (s.afterCycles k).tdi = s.tdi ∧ (s.afterCycles k).tms = s.tms ∧
      (s.afterCycles k).tdo = s.tdo := by
  subst hk
  exact ⟨rfl, rfl, rfl, rfl⟩

/-- Settles O16: the run of a pass, its response bit by bit over a zero `tdo_buf`, and the levels its last cycle left. -/
theorem passReturnsWhatTheTargetAnswered : Obligations.PassReturnsWhatTheTargetAnswered := by
  rintro s _ hvalid hagenda hphase hi rfl hcap hblank
  have hc := C_pos_of_valid hvalid
  have hrun := run_pass hagenda hphase hi hcap
  rw [afterCycles_eq] at hrun
  refine ⟨_, s.response, hrun, length_flatten_response hc, fun j hj => ?_, fun q hq => length_of_mem_chunk hc hq,
    afterCycles_levels_driven s, afterCycles_levels_kept s, rfl⟩
  rw [← hblank j]
  exact getLsbD_flatten_response hc hj

end Sys2Proof.Machine
end

section
/-! PROOFS. The vector buffer's functions on a byte sequence (43_vector_buffer.md): the least byte count, one bit read,
one bit set. -/

namespace Sys2Proof

/-! ### One bit of a byte sequence (R52, R162, R163) -/

/-- `get_bit` of a byte sequence reads bit `i % 8` of byte `i / 8`, where that byte exists (R162). -/
theorem listGetBit_of_lt {buf : List Byte} {i : Nat} (hi : i / 8 < buf.length) :
    listGetBit buf i = some ((buf.getD (i / 8) 0).getLsbD (i % 8)) := by
  rw [listGetBit, List.getElem?_eq_getElem hi, Option.map_some, byteGetBit_eq, List.getD_eq_getElem _ _ hi]

theorem listGetBit_of_le {buf : List Byte} {i : Nat} (hi : buf.length ≤ i / 8) : listGetBit buf i = none := by
  rw [listGetBit, List.getElem?_eq_none hi, Option.map_none]

/-- `set_bit` of a byte array replaces byte `i / 8`, where that byte exists (R163). -/
theorem listSetBit_of_lt {buf : List Byte} {i : Nat} (v : Bit) (hi : i / 8 < buf.length) :
    listSetBit buf i v = some (buf.set (i / 8) (byteSetBit (buf.getD (i / 8) 0) (i % 8) v)) := by
  rw [listSetBit, List.getElem?_eq_getElem hi, Option.map_some, List.getD_eq_getElem _ _ hi]

theorem listSetBit_of_le {buf : List Byte} {i : Nat} (v : Bit) (hi : buf.length ≤ i / 8) :
    listSetBit buf i v = none := by
  rw [listSetBit, List.getElem?_eq_none hi, Option.map_none]

/-- Two bits with the same byte and the same place in it are one bit, so the byte `set_bit` writes changes bit `i` of the
array alone (R52, R163). -/
theorem getLsbD_getD_set_byteSetBit {buf : List Byte} {i : Nat} (v : Bit) (hi : i / 8 < buf.length) (j : Nat) :
    ((buf.set (i / 8) (byteSetBit (buf.getD (i / 8) 0) (i % 8) v)).getD (j / 8) 0).getLsbD (j % 8) =
      if j = i then v else (buf.getD (j / 8) 0).getLsbD (j % 8) := by
  simp only [List.getD_eq_getElem?_getD]
  by_cases hbyte : i / 8 = j / 8
  · have hbit : j % 8 = i % 8 ↔ j = i := by omega
    rw [← hbyte, List.getElem?_set_self hi, Option.getD_some, byteSetBit_getLsbD _ _ _ _ (Nat.mod_lt _ (by decide))]
    simp only [hbit]
  · have hne : j ≠ i := fun h => hbyte (h ▸ rfl)
    rw [List.getElem?_set_ne hbyte, if_neg hne]

namespace Machine

/-! ### The calls (R161, R162, R163) -/

theorem exec_getBit {buf : List Byte} {i : Nat} {b : Bit} (s : State) (h : listGetBit buf i = some b) :
    exec (.getBit buf i) s = .next { s with result := .bit b } := by
  change execGetBit buf i s = _
  rw [execGetBit, h]
  rfl

theorem exec_getBit_beyond {buf : List Byte} {i : Nat} (s : State) (h : listGetBit buf i = none) :
    exec (.getBit buf i) s = .fault (.bitIndex i) := by
  change execGetBit buf i s = _
  rw [execGetBit, h]

theorem exec_setBit {buf buf' : List Byte} {i : Nat} {v : Bit} (s : State) (h : listSetBit buf i v = some buf') :
    exec (.setBit buf i v) s = .next { s with result := .bytes buf' } := by
  change execSetBit buf i v s = _
  rw [execSetBit, h]
  rfl

theorem exec_setBit_beyond {buf : List Byte} {i : Nat} {v : Bit} (s : State) (h : listSetBit buf i v = none) :
    exec (.setBit buf i v) s = .fault (.bitIndex i) := by
  change execSetBit buf i v s = _
  rw [execSetBit, h]

/-- Settles O30: byte `i / 8` alone is replaced, by one that differs in bit `i % 8` alone. -/
theorem setBitChangesOneBit : Obligations.SetBitChangesOneBit := by
  intro s buf i v
  constructor
  · intro hi
    exact ⟨_, exec_setBit s (listSetBit_of_lt v hi), List.length_set, fun j _ => getLsbD_getD_set_byteSetBit v hi j⟩
  · intro hi
    exact exec_setBit_beyond s (listSetBit_of_le v hi)

/-- Settles O28: `byte_count_of(n)` holds `n` bits with fewer than 8 to spare, so no smaller count does. -/
theorem byteCountIsTheLeastCover : Obligations.ByteCountIsTheLeastCover := by
  intro s n
  obtain ⟨hcover, hspare⟩ := byteCountOf_spec n
  refine ⟨byteCountOf n, rfl, hcover, fun B' hB' => ?_⟩
  omega

/-- Settles O29: the byte sequence's `get_bit` is handed to the caller where it has a value. -/
theorem getBitReadsOneBit : Obligations.GetBitReadsOneBit := by
  intro s buf i
  constructor
  · intro hi
    exact exec_getBit s (listGetBit_of_lt hi)
  · intro hi
    exact exec_getBit_beyond s (listGetBit_of_le hi)

end Machine

end Sys2Proof
end

section
/-! PROOFS. The errors of the Engine and what they leave to the Host (60_exceptions.md): the three aborts, the transport
reset that comes before a waiting packet, and the timeout that ends a dropped command. -/

namespace Sys2Proof.Machine

/-! ### The abort sets one flag (R28, R181) -/

theorem Err.set_capacity (e : Err) : e.set .capacity = { e with capacity := true } := by simp [Err.set]

theorem Err.set_shortPacket (e : Err) : e.set .shortPacket = { e with shortPacket := true } := by simp [Err.set]

theorem Err.set_shortHeader (e : Err) : e.set .shortHeader = { e with shortHeader := true } := by simp [Err.set]

/-- In `HEADER` an abort changes the flags alone. -/
theorem raise_in_header {s : State} (x : EngineError) (hphase : s.phase = .header) :
    s.raise x = { s with err := s.err.set x } := by
  rw [State.raise, ← hphase]

/-! ### A header refused (R171, R173) -/

theorem exec_pktHeader_short {s : State} {p : Packet} (hphase : s.phase = .header) (hlen : p.length < 4) :
    exec (.pktHeader p) s = .next { s with err := { s.err with shortHeader := true } } := by
  have hraise : exec (.pktHeader p) s = .next (s.raise .shortHeader) := by
    simp only [exec, execPktHeader, if_pos hphase, headerBitCount_short hlen]
  rw [hraise, raise_in_header _ hphase, Err.set_shortHeader]

theorem exec_pktHeader_overCapacity {s : State} {p : Packet} {n : Word32} (hphase : s.phase = .header)
    (hn : headerBitCount p = some n) (hcap : s.cfg.CAP < byteCountOf n) :
    exec (.pktHeader p) s = .next { s with err := { s.err with capacity := true } } := by
  have hraise : exec (.pktHeader p) s = .next (s.raise .capacity) := by
    simp only [exec, execPktHeader, if_pos hphase, hn, if_pos hcap]
  rw [hraise, raise_in_header _ hphase, Err.set_capacity]

/-- Settles O1: a short packet has no `bit_count`, and fits any transport, so the step consumes it. -/
theorem shortHeaderPacketIsDropped : Obligations.ShortHeaderPacketIsDropped := by
  intro s p ps hphase hlen
  refine ⟨exec_pktHeader_short hphase hlen, fun hvalid hs hrx => ?_⟩
  obtain ⟨hheader, -, -⟩ := step_packet hs hrx (hlen.le.trans hvalid)
  exact (hheader hphase).trans (exec_pktHeader_short (s := { s with rxQ := ps }) hphase hlen)

/-- Settles O2: more than 8 * CAP bits take more than CAP bytes. -/
theorem overCapacityHeaderIsRejected : Obligations.OverCapacityHeaderIsRejected := by
  intro s b0 b1 b2 b3 rest hphase hvalue
  have hvalue : 8 * s.cfg.CAP < (unle32 b0 b1 b2 b3).toNat := hvalue.trans_eq (unle32_toNat b0 b1 b2 b3).symm
  exact exec_pktHeader_overCapacity hphase rfl ((byteCountOf_gt_iff _ _).mpr hvalue)

/-! ### A payload packet refused (R172, R80) -/

theorem badPayload_iff (s : State) (p : Packet) :
    s.badPayload p = true ↔ p.length < s.need ∨ (s.need < p.length ∧ s.cfg.excessPolicy = .error) := by
  simp only [State.badPayload, Bool.or_eq_true, Bool.and_eq_true, decide_eq_true_eq]

theorem payload_aborts {s : State} (b : BufId) (done : State → State) {p : Packet} (hbad : s.badPayload p = true) :
    s.payload b done p = .next { s with err := { s.err with shortPacket := true }, phase := .header } := by
  rw [State.payload, if_pos hbad, State.raise, Err.set_shortPacket]

/-- Settles O7: the length is checked before anything is stored, alike in the two receive states. -/
theorem badPayloadPacketAborts : Obligations.BadPayloadPacketAborts := by
  rintro s p _ rfl hlen
  have hbad : s.badPayload p = true := (badPayload_iff s p).mpr hlen
  exact ⟨fun hphase => (exec_pktTms p hphase).trans (payload_aborts .tms _ hbad),
    fun hphase => (exec_pktTdi p hphase).trans (payload_aborts .tdi _ hbad)⟩

/-! ### XRESET before a waiting packet (R180, R201) -/

theorem exec_xreset_taken {s : State} (hphase : s.phase ≠ .shift) : exec .xreset s = .next s.xresetTaken :=
  if_neg hphase

/-- Between operations an XRESET that is held is the Engine's next, whatever waits in `rx_q`. -/
theorem engineMove_xreset {s : State} (hphase : s.phase ≠ .shift) (hx : s.xresetHeld = true) :
    engineMove s = some (.run .xreset s) := by
  rw [engineMove, if_neg hphase, if_pos hx]

/-- Settles O22: the Engine's move is the XRESET, and outside `SHIFT` it is taken. -/
theorem xresetComesBeforeWaitingPackets : Obligations.XresetComesBeforeWaitingPackets := by
  intro s hagenda hx hphase
  have hfetch : fetch s = .run .xreset s := fetch_of_engineMove hagenda (engineMove_xreset hphase hx)
  exact (step_of_fetch hfetch rfl).trans (exec_xreset_taken hphase)

/-! ### The timeout of a command that gets no response (R110, R176) -/

/-- A Host with all of its command sent and no response packet to read waits. -/
theorem hostMove_awaits {s : State} {f : Flight} (hflight : s.flight = some f) (hunsent : f.unsent = [])
    (htx : s.txQ = []) : hostMove s = none := by
  simp only [hostMove, hflight, hunsent, htx, ite_self]

theorem fetch_idle {s : State} (hagenda : s.agenda = []) (hengine : engineMove s = none) (hhost : hostMove s = none) :
    fetch s = idle s := by
  simp only [fetch, hagenda, autoMove, hengine, hhost, Option.getD_none]

/-- Settles O44: Engine and Host both wait, and what is left is the timeout of the command in flight. -/
theorem abortedCommandEndsByTimeout : Obligations.AbortedCommandEndsByTimeout := by
  rintro s f ⟨hagenda, hx⟩ hphase hrx htx hopen hflight hunsent
  have hidle : idle s = .move (s.teardown .transportTimeout) := by
    rw [idle, if_pos ⟨hopen, by rw [hflight]; rfl⟩, transportTimeout_inFlight hopen hflight]
  have hfetch : fetch s = idle s :=
    fetch_idle hagenda (engineMove_waits hphase hx hrx) (hostMove_awaits hflight hunsent htx)
  exact step_of_fetch_move (hfetch.trans hidle)

end Sys2Proof.Machine
end

section
/-! PROOFS. The two resets and the end of a run (70_reset_and_hazards.md): XRESET outside a pass and through one,
power-on between cycles and inside one, the packet after an abort, and when nothing is left to run. -/

namespace Sys2Proof.Machine

/-! ### XRESET (R144, R179, R201) -/

/-- Settles O20: outside `SHIFT` the XRESET is taken. -/
theorem xresetResynchronises : Obligations.XresetResynchronises :=
  fun _ hphase => exec_xreset_taken hphase

/-- Settles O21: the pass never looks at the XRESET held, and after its return the Engine is where one is taken. -/
theorem xresetIsHeldThroughThePass : Obligations.XresetIsHeldThroughThePass := by
  intro s hphase
  refine ⟨if_pos hphase, fun hagenda hi => step_shiftCycle hagenda hphase hi, fun hagenda hi hcap => ?_⟩
  have hreturn := (step_shiftReturn (s := { s with xresetHeld := true }) hagenda hphase hi).trans
    (exec_shiftReturn hphase hi hcap)
  exact ⟨_, hreturn, xresetComesBeforeWaitingPackets _ hagenda rfl nofun⟩

/-! ### Power-on (R34, R179, R200) -/

/-- POR from any state: the Engine's registers at their power-on values, buffers and latches left open (R34). -/
theorem exec_por (s : State) : ∃ t, exec .por s = .next t ∧ t = { s with
    phase := .header, bitCount := 0, offset := 0, i := 0, err := ⟨false, false, false⟩, rxQ := [], txQ := []
    tmsBuf := t.tmsBuf, tdiBuf := t.tdiBuf, tdoBuf := t.tdoBuf
    tck := t.tck, tms := t.tms, tdi := t.tdi, powerOns := s.powerOns + 1 } :=
  ⟨_, rfl, rfl⟩

/-- Settles O23: a scheduled POR waits for nothing. -/
theorem powerOnResetsTheEngine : Obligations.PowerOnResetsTheEngine :=
  fun s _ => ⟨exec_por s, fun hagenda => step_turn hagenda rfl rfl⟩

/-- A cycle cut short after `k` pin events leaves those in the trace, and the Target clocked if the rising edge is one
of them (R56, R141). -/
theorem cutCycle_in_pass {s : State} (hphase : s.phase = .shift) (hi : s.i < s.bitCount.toNat) (k : Nat) :
    s.cutCycle k = { s with
      tck := (s.cutCycle k).tck, tms := (s.cutCycle k).tms, tdi := (s.cutCycle k).tdi
      target := (clockedAfter s (levelAt s.tmsBuf s.i) (levelAt s.tdiBuf s.i) k).1
      tdo := (clockedAfter s (levelAt s.tmsBuf s.i) (levelAt s.tdiBuf s.i) k).2
      pinTrace := s.pinTrace ++ (cycleEvents (levelAt s.tdiBuf s.i) (levelAt s.tmsBuf s.i)
        (s.target.apply (levelAt s.tmsBuf s.i) (levelAt s.tdiBuf s.i)).2).take k } := by
  rw [State.cutCycle, if_pos ⟨hphase, hi⟩, cycleUpTo_eq, Memory.getBit_eq, Memory.getBit_eq]
  simp only [clockedAfter, apply_ite Prod.fst, apply_ite Prod.snd]
  rfl

/-- With no cycle to run there is none to cut. -/
theorem cutCycle_outside_pass {s : State} (h : ¬ (s.phase = .shift ∧ s.i < s.bitCount.toNat)) (k : Nat) :
    s.cutCycle k = s := if_neg h

/-- Settles O24: the entry runs POR on the state its cut cycle leaves. -/
theorem powerOnCutsACycleShort : Obligations.PowerOnCutsACycleShort := by
  rintro s k rest _ _ hagenda rfl rfl
  have hstep : step s = exec .por (State.cutCycle { s with agenda := rest } k) := step_turn hagenda rfl rfl
  refine ⟨fun hphase hi => ?_, fun hno => ?_⟩
  · obtain ⟨t, hpor, hframe⟩ := exec_por (State.cutCycle { s with agenda := rest } k)
    rw [cutCycle_in_pass (s := { s with agenda := rest }) hphase hi k] at hframe
    exact ⟨t, hstep.trans hpor, hframe⟩
  · rw [hstep, cutCycle_outside_pass (s := { s with agenda := rest }) hno]

/-! ### The packet after an abort (R181, R204) -/

/-- Settles O11: the abort leaves the Engine in `HEADER` with the second packet at the head of `rx_q`. -/
theorem packetAfterAbortIsDecodedAsHeader : Obligations.PacketAfterAbortIsDecodedAsHeader := by
  intro s p q qs hreceiving hs hrx hshort hq
  obtain ⟨-, htms, htdi⟩ := step_packet hs hrx (hshort.le.trans (Nat.min_le_left _ _))
  obtain ⟨habortTms, habortTdi⟩ := badPayloadPacketAborts { s with rxQ := q :: qs } p _ rfl (.inl hshort)
  have habort : step s =
      .next { s with rxQ := q :: qs, err := { s.err with shortPacket := true }, phase := .header } := by
    rcases hreceiving with hphase | hphase
    · exact (htms hphase).trans (habortTms hphase)
    · exact (htdi hphase).trans (habortTdi hphase)
  refine ⟨_, habort, rfl, ?_⟩
  obtain ⟨hheader, -, -⟩ := step_packet
    (s := { s with rxQ := q :: qs, err := { s.err with shortPacket := true }, phase := .header }) hs rfl hq
  exact hheader rfl

/-! ### Whether the Host has a packet left to send (R213) -/

/-- A stream that does not begin with a whole command sends nothing. -/
theorem streamSends_of_error {cfg : Config} {stream : List Byte} {e : DecodeError}
    (h : decodeTcp cfg.CAP stream = .error e) (fuel : Nat) : streamSends cfg fuel stream = false := by
  cases fuel with
  | zero => rfl
  | succ fuel => simp only [streamSends, h]

/-- A stream that begins with a whole `shift:` within capacity sends its packets (R103, R108). -/
theorem streamSends_of_shift {cfg : Config} {stream rest tms tdi : List Byte} {n : Word32}
    (h : decodeTcp cfg.CAP stream = .ok (.hostShift n tms tdi, rest)) (hcap : byteCountOf n ≤ cfg.CAP) (fuel : Nat) :
    streamSends cfg (fuel + 1) stream = true := by
  simp only [streamSends, h, if_neg (Nat.not_lt.mpr hcap)]

theorem decodeTcp_nil (cap : Nat) : decodeTcp cap [] = .error .awaitingBytes := rfl

theorem packetLeft_of_unsent {s : State} {f : Flight} (hopen : s.session = .opened) (hflight : s.flight = some f)
    (hunsent : f.unsent ≠ []) : s.packetLeft = true := by
  simp [State.packetLeft, hopen, hflight, hunsent]

theorem packetLeft_of_stream {s : State} (hopen : s.session = .opened)
    (hsends : streamSends s.cfg (s.tcpIn.length + 1) (s.tcpIn.drop s.drain) = true) : s.packetLeft = true := by
  simp only [State.packetLeft, hopen, hsends, decide_true, Bool.or_true, Bool.and_self]

theorem packetLeft_closed {s : State} (hclosed : s.session ≠ .opened) : s.packetLeft = false := by
  simp only [State.packetLeft, hclosed, decide_false, Bool.false_and]

/-- Nothing is left with every packet of a command in flight sent and no whole command in the stream. -/
theorem packetLeft_of_sent {s : State} {e : DecodeError} (hsent : ∀ f, s.flight = some f → f.unsent = [])
    (hstream : decodeTcp s.cfg.CAP (s.tcpIn.drop s.drain) = .error e) : s.packetLeft = false := by
  have hflight : s.flight.any (fun f => !f.unsent.isEmpty) = false := by
    cases hf : s.flight with
    | none => rfl
    | some f => rw [Option.any_some, hsent f hf]; rfl
  simp only [State.packetLeft, hflight, streamSends_of_error hstream, Bool.or_self, Bool.and_false]

/-! ### The end of a run (R213) -/

theorem runOver_iff (s : State) :
    s.runOver = true ↔ s.phase = .header ∧ s.rxQ = [] ∧ s.agenda = [] ∧ s.packetLeft = false := by
  simp [State.runOver, and_assoc]

theorem runOver_of_packetLeft {s : State} (h : s.packetLeft = true) : s.runOver = false := by
  simp only [State.runOver, h, Bool.not_true, Bool.and_false]

theorem goodEnd_iff (s : State) :
    s.goodEnd = true ↔ s.runOver = true ∧ s.err = ⟨false, false, false⟩ ∧ s.txQ = [] ∧ s.flight = none := by
  simp only [State.goodEnd, Bool.and_eq_true, decide_eq_true_eq, List.isEmpty_iff, Option.isNone_iff_eq_none,
    and_assoc]
  rfl

/-- Settles O54: a packet of either kind is left, or none is and the run is over. -/
theorem runIsOverWithoutPacketsLeft : Obligations.RunIsOverWithoutPacketsLeft := by
  refine ⟨fun s f hopen hflight hunsent => runOver_of_packetLeft (packetLeft_of_unsent hopen hflight hunsent),
    fun s n tms tdi rest hopen hdrain hdec hcap => ?_, fun s hphase hrx hagenda hstream hsent => ?_⟩
  · refine runOver_of_packetLeft (packetLeft_of_stream hopen ?_)
    rw [hdrain, List.drop_zero]
    exact streamSends_of_shift hdec ((byteCountOf_le_iff _ _).mpr hcap) _
  · have hnone : s.packetLeft = false := by
      refine packetLeft_of_sent hsent (e := .awaitingBytes) ?_
      rw [hstream, List.drop_nil, decodeTcp_nil]
    have hover : s.runOver = true := (runOver_iff s).mpr ⟨hphase, hrx, hagenda, hnone⟩
    exact ⟨hover, (goodEnd_iff s).trans (and_iff_right hover)⟩

/-! ### The step stops with `runOver` nowhere else (R213) -/

theorem payload_ne_runOver (u : State) (b : BufId) (done : State → State) (p : Packet) :
    u.payload b done p ≠ .fault .runOver := by
  unfold State.payload
  repeat' split
  all_goals nofun

/-- An operation that stops names a missing trigger or an index, never the end of a run. -/
theorem exec_ne_runOver (i : Instr) (u : State) : exec i u ≠ .fault .runOver := by
  cases i with
  | pktTms p =>
    simp only [exec, execPktTms]
    split
    · exact payload_ne_runOver u _ _ p
    · nofun
  | pktTdi p =>
    simp only [exec, execPktTdi]
    split
    · exact payload_ne_runOver u _ _ p
    · nofun
  | pktHeader _ | shiftCycle | shiftReturn =>
    simp only [exec, execPktHeader, execShiftCycle, execShiftReturn]
    repeat' split
    all_goals nofun
  | xreset => exact execXreset_ne_fault u _
  | por | byteCount _ | chunk _ | reassemble _ | shiftcmd _ _ _ => nofun
  | getBit _ _ | setBit _ _ _ =>
    simp only [exec, execGetBit, execSetBit]
    split <;> nofun
  | hostGetinfo | hostSettck _ | hostShift _ _ _ | hostUnknown _ =>
    simp only [exec, execHostGetinfo, execHostSettck, execHostShift, execHostUnknown]
    repeat' split
    all_goals nofun

theorem idleFault_runOver {s : State} (h : Fault.runOver = s.idleFault) : s.phase = .header := by
  unfold State.idleFault at h
  split at h
  · assumption
  all_goals cases h

/-- Where the machine stops by itself the Host has no move, and no command in flight that could time out (R176). -/
theorem fetch_stop_host {s : State} {f : Fault} (h : fetch s = .stop f) :
    hostMove s = none ∧ ¬ (s.session = .opened ∧ s.flight.isSome) := by
  obtain ⟨hagenda, hengine, -⟩ := fetch_stop h
  cases hhost : hostMove s with
  | some m =>
    simp only [fetch, hagenda, autoMove, hengine, hhost, Option.getD_some] at h
    exact absurd (h ▸ hhost) hostMove_not_stop
  | none =>
    rw [fetch_idle hagenda hengine hhost, idle] at h
    split at h
    · cases h
    · exact ⟨rfl, ‹_›⟩

/-- A Host with no command in flight and no XRESET to wait for has no move only if no whole command is left in its
stream, past what it discards of a rejected one (R105, R108). -/
theorem hostMove_none {s : State} (hopen : s.session = .opened) (hflight : s.flight = none)
    (hx : s.xresetHeld = false) (h : hostMove s = none) :
    ∃ e, decodeTcp s.cfg.CAP (s.tcpIn.drop s.drain) = .error e := by
  simp only [hostMove, hopen, reduceCtorEq, if_false, hflight, hx, Bool.false_eq_true, decode] at h
  split at h
  · split at h
    · rename_i hempty
      exact ⟨_, by rw [hempty, List.drop_nil, decodeTcp_nil]⟩
    · cases h
  · rename_i hdrain
    split at h
    · cases h
    · rename_i e hdec
      exact ⟨e, by rw [not_not.mp hdrain, List.drop_zero, hdec]⟩

/-- Settles O53: no operation stops with `runOver`, so the stop is an idle one, where the Host too has no move. -/
theorem runOverIsTheEndOfARun : Obligations.RunOverIsTheEndOfARun := by
  intro s hstep
  rcases step_fault hstep with ⟨i, u, -, -, hexec⟩ | hstop
  · exact absurd hexec (exec_ne_runOver i u)
  obtain ⟨hagenda, hengine, hidle⟩ := fetch_stop hstop
  obtain ⟨hhost, hwaiting⟩ := fetch_stop_host hstop
  have hphase : s.phase = .header := idleFault_runOver hidle
  obtain ⟨hrx, hx⟩ := engineMove_none (by simp [hphase]) hengine
  have hnone : s.packetLeft = false := by
    by_cases hopen : s.session = .opened
    · have hflight : s.flight = none := by simpa [hopen] using hwaiting
      obtain ⟨e, hstream⟩ := hostMove_none hopen hflight hx hhost
      exact packetLeft_of_sent (by simp [hflight]) hstream
    · exact packetLeft_closed hopen
  exact (runOver_iff s).mpr ⟨hphase, hrx, hagenda, hnone⟩

end Sys2Proof.Machine
end
